-- ==== Sys2Proof/Word.lean ====
section
/-! DEFINITION. The word types of the JD25519 core: the 32-bit bus and command word, the 256-bit
field register value and the 5-bit register index (00_scope R8, 10_state R20, 30_encoding R90). -/

namespace Sys2Proof

/-- A bus data word and a command word (R8: bus data width 32, command word width 32). -/
abbrev Word := BitVec 32

/-- The contents of a field register: any 256-bit value (R20). -/
abbrev FVal := BitVec 256

/-- A field register index, and any 5-bit operand field of a command (R92). -/
abbrev RegIx := Fin 32

/-- A word address of the bus, byte-address bits 11:2 (R61). -/
abbrev BusAddr := BitVec 10

end Sys2Proof
end

