-- ==== Sys2Proof/Config.lean ====
section
/-! DEFINITION. What the spec leaves open, as constants without a body: the command latencies
(00_scope R9, 70_reset_and_hazards R280, R285) and the state at power-on (R274, I-U1). -/

namespace Sys2Proof

/-- One less than the latency of the command with this opcode, an open parameter (R9, log 3).
Only defined opcodes are ever looked up. -/
opaque Config.latencyPred : BitVec 6 → Nat

/-- One less than LAT_ERR, the latency of a command rejected at decode (R9, log 3). -/
opaque Config.errLatencyPred : Nat

/-- LAT_m of the command with opcode `op`: a positive whole number of cycles that depends on the
opcode alone (R9, R285). -/
def Config.latency (op : BitVec 6) : Nat := Config.latencyPred op + 1

/-- LAT_ERR, a positive whole number of cycles (R9, R280). -/
def Config.errLatency : Nat := Config.errLatencyPred + 1

/-- The unspecified state at the `n`-th power-on (R274, I-U1: any value), one number for each place
of the state; a register takes as many low bits of it as it is wide (log 7). -/
opaque Config.powerOnFill : (n place : Nat) → Nat

end Sys2Proof
end

