-- ==== Sys2Proof/Syntax.lean ====
section
/-! DEFINITION. The commands of the JD25519 core, one constructor for each row of
spec/opcode_table.json (30_encoding R94). Fields the row marks as unused are not operands. -/

namespace Sys2Proof

/-- A command. Operands stand in the order rd, ra, rb (R98). A pair or quad operand is its base
register; `k` is an index into the constant ROM (R92). -/
inductive Instr where
  | nop
  | add    (rd ra rb : RegIx)
  | addm   (rd ra rb : RegIx)
  | subm   (rd ra rb : RegIx)
  | mulm   (rd ra rb : RegIx)
  | sqrm   (rd ra : RegIx)
  | inv    (rd ra : RegIx)
  | sqrt   (rd ra : RegIx)
  | red    (rd ra : RegIx)
  | mov    (rd ra : RegIx)
  | cswap  (rd ra rb : RegIx)
  | ldk    (rd k : RegIx)
  | clamp  (rd ra : RegIx)
  | lstep  (rd ra rb : RegIx)
  | ladder (rd ra rb : RegIx)
  | edadd  (rd ra rb : RegIx)
  | eddbl  (rd ra : RegIx)
  | edenc  (rd ra : RegIx)
  | eddec  (rd ra : RegIx)
  | edchk  (ra : RegIx)
  deriving DecidableEq, Repr

end Sys2Proof
end

