-- ==== Sys2Proof/WellFormed.lean ====
section
/-! DEFINITION. Which commands are well formed: the operand kinds of 30_encoding R92 as R94 gives
them to each command. -/

namespace Sys2Proof

/-- The legal operands of a command (R92, R94): a pair base is even, a quad base is a multiple of 4,
a constant index is at most 12, and any register index is legal. -/
def Instr.wellFormed : Instr → Bool
  | .nop => true
  | .add _ _ _ => true
  | .addm _ _ _ => true
  | .subm _ _ _ => true
  | .mulm _ _ _ => true
  | .sqrm _ _ => true
  | .inv _ _ => true
  | .sqrt _ _ => true
  | .red _ _ => true
  | .mov _ _ => true
  | .cswap _ _ _ => true
  | .ldk _ k => decide (k.val ≤ 12)
  | .clamp _ _ => true
  | .lstep rd ra _ => rd.val % 2 == 0 && ra.val % 2 == 0
  | .ladder _ _ _ => true
  | .edadd rd ra rb => rd.val % 4 == 0 && ra.val % 4 == 0 && rb.val % 4 == 0
  | .eddbl rd ra => rd.val % 4 == 0 && ra.val % 4 == 0
  | .edenc _ ra => ra.val % 4 == 0
  | .eddec rd _ => rd.val % 4 == 0
  | .edchk _ => true

end Sys2Proof
end

