-- ==== Sys2Proof/Decode.lean ====
section
/-! DEFINITION. Decoding of command words, total and rejecting by error code, and the encoder
(30_encoding R90 to R97, 60_exceptions R232 to R234). -/

namespace Sys2Proof

/-- The error codes a failed command reports (R232). Code 0 NONE is no error, and codes 5 to 15 are
never produced. -/
inductive CmdError where
  /-- Code 1: the opcode is not in R94. -/
  | illegalOpcode
  /-- Code 2: res or an unused operand field is not zero. -/
  | reservedField
  /-- Code 3: a pair or quad base is not aligned, or a constant index is above 12. -/
  | badOperand
  /-- Code 4: EDDEC's operand is not a valid point encoding. -/
  | notOnCurve
  deriving DecidableEq, Repr

/-- The value a code has in STATUS.ERRCODE (R232). -/
def CmdError.code : CmdError → BitVec 4
  | .illegalOpcode => 1
  | .reservedField => 2
  | .badOperand => 3
  | .notOnCurve => 4

/-! ### The fields of a command word (R90, R91) -/

/-- op = w[5:0] (R91). -/
def opField (w : Word) : BitVec 6 := w.extractLsb' 0 6

/-- rd = w[10:6] (R91). -/
def rdField (w : Word) : RegIx := ⟨(w.extractLsb' 6 5).toNat, (w.extractLsb' 6 5).isLt⟩

/-- ra = w[15:11] (R91). -/
def raField (w : Word) : RegIx := ⟨(w.extractLsb' 11 5).toNat, (w.extractLsb' 11 5).isLt⟩

/-- rb = w[20:16] (R91). -/
def rbField (w : Word) : RegIx := ⟨(w.extractLsb' 16 5).toNat, (w.extractLsb' 16 5).isLt⟩

/-- res = w[31:21] (R91). -/
def resField (w : Word) : BitVec 11 := w.extractLsb' 21 11

/-! ### Operand kinds (R92) and the opcode map (R94) -/

/-- What an operand field names for an opcode (R92); `unused` is R94's "−". -/
inductive FieldKind where
  | unused
  | reg
  | pair
  | quad
  | const
  deriving DecidableEq, Repr

/-- An even register index is a pair base (R22, R92). -/
def isPairBase (i : RegIx) : Bool := i.val % 2 == 0

/-- A register index that is a multiple of 4 is a quad base (R22, R92). -/
def isQuadBase (i : RegIx) : Bool := i.val % 4 == 0

/-- The constant ROM has the indices 0 to 12 (R92, R148). -/
def isConstIndex (i : RegIx) : Bool := decide (i.val ≤ 12)

/-- An unused field must be zero (R93). -/
def FieldKind.reservedOk (k : FieldKind) (v : RegIx) : Bool :=
  match k with
  | .unused => v.val == 0
  | .reg => true
  | .pair => true
  | .quad => true
  | .const => true

/-- The legal values of an operand field (R92). -/
def FieldKind.operandOk (k : FieldKind) (v : RegIx) : Bool :=
  match k with
  | .unused => true
  | .reg => true
  | .pair => isPairBase v
  | .quad => isQuadBase v
  | .const => isConstIndex v

/-- The operand kinds of one row of R94. -/
structure OpRow where
  rd : FieldKind
  ra : FieldKind
  rb : FieldKind
  deriving DecidableEq, Repr

/-- The row of R94 for an opcode, with the command its operand fields make; none for the 44
undefined opcodes of R95. -/
def opEntry (op : BitVec 6) (rd ra rb : RegIx) : Option (OpRow × Instr) :=
  match op.toNat with
  | 0x00 => some (⟨.unused, .unused, .unused⟩, .nop)
  | 0x01 => some (⟨.reg, .reg, .reg⟩, .add rd ra rb)
  | 0x02 => some (⟨.reg, .reg, .reg⟩, .addm rd ra rb)
  | 0x03 => some (⟨.reg, .reg, .reg⟩, .subm rd ra rb)
  | 0x04 => some (⟨.reg, .reg, .reg⟩, .mulm rd ra rb)
  | 0x05 => some (⟨.reg, .reg, .unused⟩, .sqrm rd ra)
  | 0x06 => some (⟨.reg, .reg, .unused⟩, .inv rd ra)
  | 0x07 => some (⟨.reg, .reg, .unused⟩, .sqrt rd ra)
  | 0x08 => some (⟨.reg, .reg, .unused⟩, .red rd ra)
  | 0x09 => some (⟨.reg, .reg, .unused⟩, .mov rd ra)
  | 0x0A => some (⟨.reg, .reg, .reg⟩, .cswap rd ra rb)
  | 0x0B => some (⟨.reg, .const, .unused⟩, .ldk rd ra)
  | 0x10 => some (⟨.reg, .reg, .unused⟩, .clamp rd ra)
  | 0x11 => some (⟨.pair, .pair, .reg⟩, .lstep rd ra rb)
  | 0x12 => some (⟨.reg, .reg, .reg⟩, .ladder rd ra rb)
  | 0x20 => some (⟨.quad, .quad, .quad⟩, .edadd rd ra rb)
  | 0x21 => some (⟨.quad, .quad, .unused⟩, .eddbl rd ra)
  | 0x30 => some (⟨.reg, .quad, .unused⟩, .edenc rd ra)
  | 0x31 => some (⟨.quad, .reg, .unused⟩, .eddec rd ra)
  | 0x32 => some (⟨.unused, .reg, .unused⟩, .edchk ra)
  | _ => none

/-! ### Decode (R96) -/

/-- Decode a command word: the opcode is checked first, then the reserved fields, then the operands
(R96, R234). -/
def decode (w : Word) : Except CmdError Instr :=
  match opEntry (opField w) (rdField w) (raField w) (rbField w) with
  | none => .error .illegalOpcode
  | some (row, i) =>
    if !(resField w == 0 && row.rd.reservedOk (rdField w) && row.ra.reservedOk (raField w)
        && row.rb.reservedOk (rbField w)) then
      .error .reservedField
    else if !(row.rd.operandOk (rdField w) && row.ra.operandOk (raField w)
        && row.rb.operandOk (rbField w)) then
      .error .badOperand
    else
      .ok i

/-! ### Encode (R91, R94) -/

/-- encode(op, rd, ra, rb) of R91, with res = 0. -/
def encodeFields (op : BitVec 6) (rd ra rb : RegIx) : Word :=
  (BitVec.ofNat 32 rb.val <<< 16) ||| (BitVec.ofNat 32 ra.val <<< 11) |||
    (BitVec.ofNat 32 rd.val <<< 6) ||| op.setWidth 32

/-- The opcode of a command (R94). -/
def Instr.opcode : Instr → BitVec 6
  | .nop => 0x00
  | .add _ _ _ => 0x01
  | .addm _ _ _ => 0x02
  | .subm _ _ _ => 0x03
  | .mulm _ _ _ => 0x04
  | .sqrm _ _ => 0x05
  | .inv _ _ => 0x06
  | .sqrt _ _ => 0x07
  | .red _ _ => 0x08
  | .mov _ _ => 0x09
  | .cswap _ _ _ => 0x0A
  | .ldk _ _ => 0x0B
  | .clamp _ _ => 0x10
  | .lstep _ _ _ => 0x11
  | .ladder _ _ _ => 0x12
  | .edadd _ _ _ => 0x20
  | .eddbl _ _ => 0x21
  | .edenc _ _ => 0x30
  | .eddec _ _ => 0x31
  | .edchk _ => 0x32

/-- The word of a command; unused fields are zero (R91, R93, R94). -/
def encode (i : Instr) : Word :=
  match i with
  | .nop => encodeFields i.opcode 0 0 0
  | .add rd ra rb => encodeFields i.opcode rd ra rb
  | .addm rd ra rb => encodeFields i.opcode rd ra rb
  | .subm rd ra rb => encodeFields i.opcode rd ra rb
  | .mulm rd ra rb => encodeFields i.opcode rd ra rb
  | .sqrm rd ra => encodeFields i.opcode rd ra 0
  | .inv rd ra => encodeFields i.opcode rd ra 0
  | .sqrt rd ra => encodeFields i.opcode rd ra 0
  | .red rd ra => encodeFields i.opcode rd ra 0
  | .mov rd ra => encodeFields i.opcode rd ra 0
  | .cswap rd ra rb => encodeFields i.opcode rd ra rb
  | .ldk rd k => encodeFields i.opcode rd k 0
  | .clamp rd ra => encodeFields i.opcode rd ra 0
  | .lstep rd ra rb => encodeFields i.opcode rd ra rb
  | .ladder rd ra rb => encodeFields i.opcode rd ra rb
  | .edadd rd ra rb => encodeFields i.opcode rd ra rb
  | .eddbl rd ra => encodeFields i.opcode rd ra 0
  | .edenc rd ra => encodeFields i.opcode rd ra 0
  | .eddec rd ra => encodeFields i.opcode rd ra 0
  | .edchk ra => encodeFields i.opcode 0 ra 0

/-! ### The host's view of the decoder -/

/-- The low `nbits` bits of `w` as the one 32-bit command word; none when they do not fit in it,
since every command is exactly one word (R97, log 14). -/
def tableWord (nbits w : Nat) : Option Word :=
  if w % 2 ^ nbits < 4294967296 then some (BitVec.ofNat 32 (w % 2 ^ nbits)) else none

/-- The command the decoder reads from an instruction's bits; none where it refuses. -/
def decodeTableWord (nbits w : Nat) : Option Instr :=
  match tableWord nbits w with
  | none => none
  | some word =>
    match decode word with
    | .error _ => none
    | .ok i => some i

end Sys2Proof
end

