-- ==== Sys2Proof/Machine/State.lean ====
section
/-! DEFINITION. The state of the JD25519 core as plain data (10_state R20 to R47), the inputs of one
clock cycle (20_memory R61), the reasons a step could stop, and the state after reset (R47, R270). -/

namespace Sys2Proof.Machine

/-- CTRL, the two fields that are stored; bits 31:2 are RAZ/WI (R33). -/
structure Ctrl where
  /-- IRQ_EN, bit 0. -/
  irqEn : Bool
  /-- UMASK, bit 1. -/
  umask : Bool
  deriving DecidableEq, Repr

/-- STATUS, the fields that are stored; bits 7 and 31:12 are RAZ/WI (R35). -/
structure Status where
  /-- BUSY, bit 0. -/
  busy : Bool
  /-- DONE, bit 1. -/
  done : Bool
  /-- ERR, bit 2. -/
  err : Bool
  /-- OVR, bit 3. -/
  ovr : Bool
  /-- CARRY, bit 4. -/
  carry : Bool
  /-- NOROOT, bit 5. -/
  noroot : Bool
  /-- ONCURVE, bit 6. -/
  oncurve : Bool
  /-- ERRCODE, bits 11:8. -/
  errcode : BitVec 4
  deriving DecidableEq, Repr

/-- The operand snapshot taken when a command is accepted, with the execution copy of the command
word (R45, R119). -/
structure Snapshot where
  cmd   : Word
  f     : Vector FVal 32
  umask : Bool
  deriving DecidableEq, Repr

/-- The ladder working state of R45 and R177. The spec gives the bit index t no width (log 4). -/
structure LadderWork where
  x1   : FVal
  x2   : FVal
  z2   : FVal
  x3   : FVal
  z3   : FVal
  swap : Bool
  t    : Nat
  deriving DecidableEq, Repr

/-- The bus pins of one cycle (R61, R62): no transaction, a read, or a write. -/
inductive BusReq where
  /-- bus_sel = 0. -/
  | idle
  /-- bus_sel = 1, bus_we = 0. -/
  | read  (addr : BusAddr)
  /-- bus_sel = 1, bus_we = 1. -/
  | write (addr : BusAddr) (data : Word)
  deriving DecidableEq, Repr

/-- The input pins of one clock cycle (R61). -/
structure Pins where
  rstN : Bool
  bus  : BusReq
  deriving DecidableEq, Repr

/-- What reaches the unit from outside, one event a step (log 1). -/
inductive Input where
  /-- A clock cycle, ended by a rising edge, with these input pins (R61, R62). -/
  | cycle (pins : Pins)
  /-- The clock stands still: the state is frozen (R250, I-U13; log 8). -/
  | clockStopped
  /-- Power is lost and comes back: every register is unspecified (R250, R274, I-U1, I-U14; log 7). -/
  | powerCycle
  deriving DecidableEq, Repr

/-- The state of the unit. No program counter, instruction memory, mode, saved register or timer
exists (R21, R242, R245, R246), and the unit has no memory (R12, R152; log 11). -/
structure State where
  /-- The field registers f0 to f31 (R20). -/
  f         : Vector FVal 32
  /-- CTRL (R33). -/
  ctrl      : Ctrl
  /-- STATUS (R35). -/
  status    : Status
  /-- LASTCMD, what a read of CMD returns (R43). -/
  lastCmd   : Word
  /-- The operand snapshot and the execution copy of LASTCMD, hidden (R45, R119). -/
  snap      : Snapshot
  /-- The ladder working state, hidden (R45). -/
  ladder    : LadderWork
  /-- The exponentiation temporary, hidden (R45; log 4). -/
  expTmp    : FVal
  /-- The cycle counter that ends the busy period, hidden: clock edges still to come up to and with
  the completion edge (R45, R280). -/
  cycles    : Nat
  /-- What bus_rdata carried in the cycle last stepped, when a read was presented (R61, R62; log 5). -/
  rdata     : Option Word
  /-- Whether the last clock edge was a reset edge, on which R271 makes read data depend (log 6). -/
  rstPrev   : Bool
  /-- The model's own: the events still to come from outside; none left is an idle cycle (log 1). -/
  inputs    : List Input
  /-- The model's own: whether a reset edge has been taken since power came on (log 7). -/
  resetDone : Bool
  /-- The model's own: how often power came on, which picks the free values of the next (log 7). -/
  powerUps  : Nat
  deriving DecidableEq, Repr

/-- The reasons a step stops with a fault. There is none: no bus access and no command raises a fault,
a failed command completes with ERR = 1 (R66, R96, R230), and so no step stops (log 15). -/
inductive Fault where
  deriving DecidableEq, Repr

/-- The reasons a command has no meaning. -/
inductive Refusal where
  /-- Raised by a refused arm of `exec` for a command without a meaning yet. Safe: nothing can be
  proved of a next state. No arm raises it now. -/
  | notModelled (mnemonic : String)
  deriving DecidableEq, Repr

/-- The snapshot outside a command: zero (R45, R47). -/
def Snapshot.cleared : Snapshot := { cmd := 0, f := Vector.replicate 32 0, umask := false }

/-- The ladder working state outside a LADDER command: zero (R45, R47). -/
def LadderWork.cleared : LadderWork :=
  { x1 := 0, x2 := 0, z2 := 0, x3 := 0, z3 := 0, swap := false, t := 0 }

/-- STATUS after reset, 0x00000000 (R47, R270). -/
def Status.reset : Status :=
  { busy := false, done := false, err := false, ovr := false, carry := false, noroot := false,
    oncurve := false, errcode := 0 }

/-- The machine right after reset (R47, R270). The last five fields are no registers of the unit: an
output, the memory of the reset edge itself, and the model's own fields (log 10). -/
def State.reset : State :=
  { f := Vector.replicate 32 0
    ctrl := { irqEn := false, umask := true }
    status := Status.reset
    lastCmd := 0
    snap := Snapshot.cleared
    ladder := LadderWork.cleared
    expTmp := 0
    cycles := 0
    rdata := none
    rstPrev := true
    inputs := []
    resetDone := true
    powerUps := 0 }

end Sys2Proof.Machine
end

