-- ==== Sys2Proof/Machine/Flags.lean ====
section
/-! DEFINITION. CTRL and STATUS as bus words, and every computation of a status flag (10_state R33
to R37, 60_exceptions R231 and R240). -/

namespace Sys2Proof.Machine

/-! ### CTRL (R33, R34) -/

/-- CTRL as read: zext_32(UMASK ‖ IRQ_EN) (R34). -/
def Ctrl.toWord (c : Ctrl) : Word :=
  0#30 ++ BitVec.ofBool c.umask ++ BitVec.ofBool c.irqEn

/-- CTRL as a write of v leaves it: bits 31:2 of v are discarded (R34). -/
def Ctrl.ofWord (v : Word) : Ctrl := { irqEn := v.getLsbD 0, umask := v.getLsbD 1 }

/-! ### STATUS (R35) -/

/-- STATUS as read: zext_32(ERRCODE ‖ 0 ‖ ONCURVE ‖ NOROOT ‖ CARRY ‖ OVR ‖ ERR ‖ DONE ‖ BUSY) (R35). -/
def Status.toWord (t : Status) : Word :=
  0#20 ++ t.errcode ++ 0#1 ++ BitVec.ofBool t.oncurve ++ BitVec.ofBool t.noroot
    ++ BitVec.ofBool t.carry ++ BitVec.ofBool t.ovr ++ BitVec.ofBool t.err ++ BitVec.ofBool t.done
    ++ BitVec.ofBool t.busy

/-- A write of v to STATUS: bits 1, 2 and 3 clear DONE, ERR and OVR, the rest is ignored (R35). -/
def Status.writeOneToClear (t : Status) (v : Word) : Status :=
  { t with
    done := t.done && !v.getLsbD 1
    err := t.err && !v.getLsbD 2
    ovr := t.ovr && !v.getLsbD 3 }

/-- A bus write was dropped (R70, R238). -/
def Status.overrun (t : Status) : Status := { t with ovr := true }

/-- A command is accepted (R43). -/
def Status.accepted (t : Status) : Status :=
  { t with busy := true, done := false, err := false, errcode := 0 }

/-- A command completes (R231: BUSY ← 0, DONE ← 1). -/
def Status.finished (t : Status) : Status := { t with busy := false, done := true }

/-- A command fails with a code (R231: ERR ← 1, ERRCODE ← c). -/
def Status.failed (t : Status) (c : CmdError) : Status := { t with err := true, errcode := c.code }

/-! ### Result flags (R37) -/

/-- s[256] of the raw sum: the carry out of bit 255 (R122). -/
def carryOut (a b : FVal) : Bool := (a.toNat + b.toNat).testBit 256

/-- CARRY, written by ADD only (R122). -/
def Status.setCarry (b : Bool) (t : Status) : Status := { t with carry := b }

/-- NOROOT, written by SQRT only (R136). -/
def Status.setNoroot (b : Bool) (t : Status) : Status := { t with noroot := b }

/-- ONCURVE, written by EDCHK only (R217). -/
def Status.setOncurve (b : Bool) (t : Status) : Status := { t with oncurve := b }

/-- No result flag is written. -/
def Status.keep (t : Status) : Status := t

/-! ### The interrupt output (R240) -/

/-- irq = CTRL.IRQ_EN and STATUS.DONE, a level evaluated on the registered state (R240). -/
def State.irq (s : State) : Bool := s.ctrl.irqEn && s.status.done

end Sys2Proof.Machine
end

