-- ==== Sys2Proof/Machine/Arith.lean ====
section
/-! DEFINITION. Arithmetic modulo p = 2^255 − 19 on 256-bit values, and the functions the command
rules are written in: field operations (40_field), the ladder step (41_ladder), the Edwards formulas
(42_edwards), and point encoding and decoding (43_encode_decode). Every function accepts any 256-bit
value and every modular result is canonical (R121). -/

namespace Sys2Proof.Machine

/-! ### Constants (R8, R15) -/

/-- p = 2^255 − 19 (R8). -/
def fieldP : Nat := 0x7fffffffffffffffffffffffffffffffffffffffffffffffffffffffffffffed

/-- The Edwards curve parameter d (R15; general knowledge of the spec's, log 12). -/
def constD : FVal := 0x52036cee2b6ffe738cc740797779e89800700a4d4141d8ab75eb4dca135978a3#256

/-- 2d mod p (R15). -/
def constD2 : FVal := 0x2406d9dc56dffce7198e80f2eef3d13000e0149a8283b156ebd69b9426b2f159#256

/-- SQRTM1, a square root of −1 (R15; log 12). -/
def constSqrtM1 : FVal := 0x2b8324804fc1df0b2b4d00993dfbd7a72f431806ad2fe478c4ee1b274a0ea0b0#256

/-- a24 = 121665 (R15; log 12). -/
def constA24 : FVal := 0x1db41#256

/-- The Edwards base point's x (R15; log 12). -/
def constBx : FVal := 0x216936d3cd6e53fec0a4e231fdd6dc5c692cc7609525a7b2c9562d608f25d51a#256

/-- The Edwards base point's y (R15; log 12). -/
def constBy : FVal := 0x6666666666666666666666666666666666666666666666666666666666666658#256

/-- B_x · B_y mod p (R15). -/
def constBt : FVal := 0x67875f0fd78b766566ea4e8e64abe37d20f09f80775152f56dde8ab3a5b7dda3#256

/-- The group order L (R15; log 12). -/
def constL : FVal := 0x1000000000000000000000000000000014def9dea2f79cd65812631a5cf5d3ed#256

/-- The constant ROM KROM, entries 0 to 12 (R148). -/
def kromTable : List FVal :=
  [0, 1, BitVec.ofNat 256 fieldP, constD, constD2, constSqrtM1, constA24, 9, constBx, constBy,
    constBt, constL, 0x76d06#256]

/-- KROM[k]; none for an index above 12, which is no entry (R92, R148). -/
def krom (k : RegIx) : Option FVal := kromTable[k.val]?

/-! ### Field arithmetic (R11, R121) -/

/-- A number reduced mod p, as a register value (R11, R121). -/
def reduce (n : Nat) : FVal := BitVec.ofNat 256 (n % fieldP)

/-- (a + b) mod p (R124). -/
def addP (a b : FVal) : FVal := reduce (a.toNat + b.toNat)

/-- (a − b) mod p, the mathematical difference taken into [0, p) (R126). -/
def subP (a b : FVal) : FVal :=
  BitVec.ofNat 256 (((a.toNat : Int) - (b.toNat : Int)) % (fieldP : Int)).toNat

/-- (a · b) mod p, the ordinary product (R128). -/
def mulP (a b : FVal) : FVal := reduce (a.toNat * b.toNat)

/-- b^e mod p by square and multiply over the low `n` bits of `e`. The chain is internal (R133,
I-U21). -/
def powLoop (b e : Nat) : Nat → Nat
  | 0 => 1
  | n + 1 =>
    if e % 2 = 1 then b * powLoop (b * b % fieldP) (e / 2) n % fieldP
    else powLoop (b * b % fieldP) (e / 2) n

/-- a^e mod p for an exponent below 2^256 (R133, R136). -/
def powP (a : FVal) (e : Nat) : FVal := reduce (powLoop (a.toNat % fieldP) e 256)

/-- inv_p(a) = (a mod p)^(p−2) mod p, which is 0 when a ≡ 0 (R11, R133). -/
def invP (a : FVal) : FVal := powP a (fieldP - 2)

/-- What the square-root rule yields: the value written and the NOROOT flag. -/
structure Root where
  r      : FVal
  noroot : Bool
  deriving DecidableEq, Repr

/-- The candidate b = a^((p+3)/8) of the square-root rule (R136). -/
def sqrtCandidate (a : FVal) : FVal :=
  powP a 0x0ffffffffffffffffffffffffffffffffffffffffffffffffffffffffffffffe

/-- The square-root rule, given its candidate (R136). -/
def sqrtFrom (a b : FVal) : Root :=
  if mulP b b = reduce a.toNat then { r := b, noroot := false }
  else if mulP b b = reduce (fieldP - (reduce a.toNat).toNat) then
    { r := mulP b constSqrtM1, noroot := false }
  else { r := 0, noroot := true }

/-- The modular square root of R136. -/
def sqrtP (a : FVal) : Root := sqrtFrom a (sqrtCandidate a)

/-! ### Ladder functions (R170, R172) -/

/-- Clamping: clear bits 2:0 and 255, set bit 254 (R170). -/
def clampV (v : FVal) : FVal :=
  (v &&& ~~~(0x7#256)) &&& ~~~(1#256 <<< 255) ||| (1#256 <<< 254)

/-- The four values a ladder step returns (R172). -/
structure StepOut where
  x2 : FVal
  z2 : FVal
  x3 : FVal
  z3 : FVal
  deriving DecidableEq, Repr

/-- LSTEPF, the combined doubling and differential addition; every operation is mod p (R172). -/
def lstepF (x2 z2 x3 z3 x1 : FVal) : StepOut :=
  let a := addP x2 z2
  let aa := mulP a a
  let b := subP x2 z2
  let bb := mulP b b
  let e := subP aa bb
  let c := addP x3 z3
  let d := subP x3 z3
  let da := mulP d a
  let cb := mulP c b
  { x2 := mulP aa bb
    z2 := mulP e (addP aa (mulP constA24 e))
    x3 := mulP (addP da cb) (addP da cb)
    z3 := mulP (mulP x1 (subP da cb)) (subP da cb) }

/-! ### Edwards formulas (R189, R190, R194) -/

/-- A quad: extended coordinates (X, Y, Z, T) (R22, R189). -/
structure Quad where
  x : FVal
  y : FVal
  z : FVal
  t : FVal
  deriving DecidableEq, Repr

/-- EDADD's formula on any two quads; every operation is mod p (R190, R197). -/
def edAdd (p q : Quad) : Quad :=
  let a := mulP (subP p.y p.x) (subP q.y q.x)
  let b := mulP (addP p.y p.x) (addP q.y q.x)
  let c := mulP (mulP p.t constD2) q.t
  let d := mulP (mulP 2 p.z) q.z
  let e := subP b a
  let f := subP d c
  let g := addP d c
  let h := addP b a
  { x := mulP e f, y := mulP g h, z := mulP f g, t := mulP e h }

/-- EDDBL's formula on any quad; T is not read (R194, R197). -/
def edDbl (p : Quad) : Quad :=
  let a := mulP p.x p.x
  let b := mulP p.y p.y
  let c := mulP 2 (mulP p.z p.z)
  let h := addP a b
  let e := subP h (mulP (addP p.x p.y) (addP p.x p.y))
  let g := subP a b
  let f := addP c g
  { x := mulP e f, y := mulP g h, z := mulP f g, t := mulP e h }

/-! ### Point encoding and decoding (R209, R210, R212) -/

/-- The encoding of a point with canonical y: y in bits 254:0 and bit 0 of x in bit 255 (R209). -/
def packPoint (x y : FVal) : FVal := y ||| ((x &&& 1) <<< 255)

/-- EDENC's result on any quad, given zi = inv_p(Z); T is not read (R210). -/
def edEncWith (zi : FVal) (p : Quad) : FVal := packPoint (mulP p.x zi) (mulP p.y zi)

/-- v[254:0], the y field of an encoding (R209, R212). -/
def encodedY (v : FVal) : FVal :=
  v &&& 0x7fffffffffffffffffffffffffffffffffffffffffffffffffffffffffffffff#256

/-- v[255], the sign bit of an encoding (R209, R212). -/
def encodedSign (v : FVal) : Bool := v.getLsbD 255

/-- u / w of R212, with u = y² − 1 and w = d·y² + 1. -/
def decRatio (y : FVal) : FVal :=
  mulP (subP (mulP y y) 1) (invP (addP (mulP (mulP constD y) y) 1))

/-- The end of DEC: given y, the sign and the root of u/w, the point, or none for REJECT by checks
(b) and (c) of R212. -/
def decWith (y : FVal) (s : Bool) (root : Root) : Option Quad :=
  if root.noroot then none
  else if root.r = 0 ∧ s = true then none
  else
    let x := if root.r.getLsbD 0 ≠ s then BitVec.ofNat 256 (fieldP - root.r.toNat) else root.r
    some { x := x, y := y, z := 1, t := mulP x y }

/-- DEC(v): a point, or none for REJECT; a y that is not canonical is check (a) (R212). -/
def decPoint (v : FVal) : Option Quad :=
  if fieldP ≤ (encodedY v).toNat then none
  else decWith (encodedY v) (encodedSign v) (sqrtP (decRatio (encodedY v)))

end Sys2Proof.Machine
end

