-- ==== Sys2Proof/Machine/Operands.lean ====
section
/-! DEFINITION. The operand forms of a command: registers, pairs and quads of the operand snapshot
(10_state R22, 30_encoding R92, 40_field R119). -/

namespace Sys2Proof.Machine

/-- S(i), the value register i held when the command was accepted (R12, R119). -/
def State.src (s : State) (i : RegIx) : FVal := s.snap.f[i.val]

/-- The quad of the snapshot at base i (R12, R22). -/
def State.srcQuad (s : State) (i : RegIx) : Quad :=
  { x := s.src i, y := s.src (i + 1), z := s.src (i + 2), t := s.src (i + 3) }

/-- A write list that puts a quad at base i, in the order X, Y, Z, T (R190, R213). -/
def quadWrites (i : RegIx) (q : Quad) : List (RegIx × FVal) :=
  [(i, q.x), (i + 1, q.y), (i + 2, q.z), (i + 3, q.t)]

/-- LADDER's u operand: bit 255 cleared when the snapshot's UMASK is 1 (R33, R177). -/
def State.srcU (s : State) (i : RegIx) : FVal :=
  if s.snap.umask then
    s.src i &&& 0x7fffffffffffffffffffffffffffffffffffffffffffffffffffffffffffffff#256
  else s.src i

end Sys2Proof.Machine
end

