-- ==== Sys2Proof/Machine/Ops.lean ====
section
/-! DEFINITION. The shared operations: register writes, the two ways a command completes
(60_exceptions R231), the register window and its bus accesses (20_memory R62 to R72), accepting a
command (10_state R43), reset and power-on (70_reset_and_hazards R270 to R274). -/

namespace Sys2Proof.Machine

/-! ### Register writes -/

/-- f[i] ← v (R12). -/
def State.writeReg (s : State) (i : RegIx) (v : FVal) : State :=
  { s with f := s.f.set i.val v i.isLt }

/-- Write destinations in the order listed, so that the later write stands (R119, R231). -/
def State.writeRegs (s : State) : List (RegIx × FVal) → State
  | [] => s
  | (i, v) :: rest => (s.writeReg i v).writeRegs rest

/-! ### Completion (R231) -/

/-- At completion the snapshot, every temporary and the cycle counter are cleared (R45, R231). -/
def State.clearHidden (s : State) : State :=
  { s with snap := Snapshot.cleared, ladder := LadderWork.cleared, expTmp := 0, cycles := 0 }

/-- STATUS replaced. -/
def State.setStatus (s : State) (t : Status) : State := { s with status := t }

/-- A command completes without error: its destinations and result flags are written, BUSY ← 0,
DONE ← 1, the hidden state is cleared, all at one edge (R118, R231). -/
def succeed (s : State) (writes : List (RegIx × FVal)) (flags : Status → Status) :
    Host.Outcome State Fault Refusal :=
  .next ((s.writeRegs writes).setStatus (flags s.status).finished).clearHidden

/-- A command fails with a code: ERR ← 1, ERRCODE ← c, BUSY ← 0, DONE ← 1, and no destination or
result flag is written. The unit has no traps: nothing is saved, no mode changes and no control
transfer takes place (R230, R231, R242), and there is no return from it (R243). -/
def failWith (s : State) (c : CmdError) : Host.Outcome State Fault Refusal :=
  .next (s.setStatus (s.status.failed c).finished).clearHidden

/-! ### Hidden working state (R45) -/

/-- The exponentiation temporary takes the power last computed (R45, log 4). -/
def State.setExp (s : State) (v : FVal) : State := { s with expTmp := v }

/-- The ladder working state is replaced (R45, R177). -/
def State.setLadder (s : State) (w : LadderWork) : State := { s with ladder := w }

/-! ### Accepting a command (R43, R280) -/

/-- The latency of an accepted word: LAT_ERR when decode gives an error code, else LAT_m of its
opcode (R280). -/
def latencyOf (w : Word) : Nat :=
  match decode w with
  | .error _ => Config.errLatency
  | .ok _ => Config.latency (opField w)

/-- The operand snapshot of a state, with the execution copy of the command word (R45, R119). -/
def State.snapshot (s : State) (w : Word) : Snapshot := { cmd := w, f := s.f, umask := s.ctrl.umask }

/-- A word is accepted as a command with a given number of clock edges to its completion (R43). -/
def State.acceptFor (s : State) (w : Word) (lat : Nat) : State :=
  { s with
    lastCmd := w
    status := s.status.accepted
    snap := s.snapshot w
    cycles := lat }

/-- A word is accepted as a command (R43, R280). -/
def State.accept (s : State) (w : Word) : State := s.acceptFor w (latencyOf w)

/-! ### The register window (R63 to R66) -/

/-- What a word address of the window reaches: one row of R63's table. -/
inductive WindowReg where
  | id
  | version
  | ctrl
  | status
  | cmd
  | reserved
  /-- Word `w` of field register `n` (R64). -/
  | field (n : RegIx) (w : Fin 8)
  deriving DecidableEq, Repr

/-- The address decoder; the byte address is 4 · addr (R61, R63, R64, R65). -/
def windowReg (addr : BusAddr) : WindowReg :=
  if addr.toNat = 0 then .id
  else if addr.toNat = 1 then .version
  else if addr.toNat = 2 then .ctrl
  else if addr.toNat = 3 then .status
  else if addr.toNat = 4 then .cmd
  else if h : 256 ≤ addr.toNat ∧ addr.toNat < 512 then
    .field ⟨(addr.toNat - 256) / 8, by omega⟩ ⟨addr.toNat % 8, by omega⟩
  else .reserved

/-- The ID constant, "JD25" (R31). -/
def idWord : Word := 0x4A443235#32

/-- The VERSION constant, 1.0 (R32). -/
def versionWord : Word := 0x00010000#32

/-- Bits [32w+31 : 32w] of a register (R64, R67). -/
def wordOf (v : FVal) (w : Fin 8) : Word := v.extractLsb' (32 * w.val) 32

/-- A register with bits [32w+31 : 32w] replaced, the other 224 unchanged (R64). -/
def replaceWord (v : FVal) (w : Fin 8) (x : Word) : FVal :=
  (v &&& ~~~((0xffffffff#256) <<< (32 * w.val))) ||| (x.setWidth 256 <<< (32 * w.val))

/-- The value a bus read returns; a read has no side effect (R62, R70, R72). -/
def busRead (s : State) (addr : BusAddr) : Word :=
  match windowReg addr with
  | .id => idWord
  | .version => versionWord
  | .ctrl => s.ctrl.toWord
  | .status => s.status.toWord
  | .cmd => s.lastCmd
  | .reserved => 0
  | .field n w => if s.status.busy then 0 else wordOf s.f[n.val] w

/-- A bus write that arrives while BUSY = 1 is dropped and sets OVR (R70, R238). -/
def State.dropWrite (s : State) : State := s.setStatus s.status.overrun

/-- CTRL replaced. -/
def State.setCtrl (s : State) (c : Ctrl) : State := { s with ctrl := c }

/-- The effect of a bus write (R62, R66, R70; R31 to R35 and R43 for each register). -/
def busWrite (s : State) (addr : BusAddr) (v : Word) : State :=
  match windowReg addr with
  | .id => s
  | .version => s
  | .ctrl => if s.status.busy then s.dropWrite else s.setCtrl (Ctrl.ofWord v)
  | .status => s.setStatus (s.status.writeOneToClear v)
  | .cmd => if s.status.busy then s.dropWrite else s.accept v
  | .reserved => s
  | .field n w =>
    if s.status.busy then s.dropWrite else s.writeReg n (replaceWord s.f[n.val] w v)

/-- Byte-address bits 11:2, all the unit sees of a host's byte address (R61, R69). -/
def wordAddr (addr : BitVec 12) : BusAddr := addr.extractLsb' 2 10

/-- MemRead(addr, 4) (R12). -/
def memRead (s : State) (addr : BitVec 12) : Word := busRead s (wordAddr addr)

/-- MemWrite(addr, 4, v) (R12). -/
def memWrite (s : State) (addr : BitVec 12) (v : Word) : State := busWrite s (wordAddr addr) v

/-! ### One clock cycle (R62, R241, R270, R271) -/

/-- The input of the next step; an empty list is an idle cycle with rst_n = 1 (log 1). -/
def State.nextInput (s : State) : Input :=
  match s.inputs with
  | [] => .cycle { rstN := true, bus := .idle }
  | i :: _ => i

/-- The events that remain after the next step. -/
def State.popInput (s : State) : State := { s with inputs := s.inputs.tail }

/-- bus_rdata of a cycle in which a read is presented, on the state at its start: 0 while a reset is
held, from its first edge on (R62, R271; log 5, log 6). -/
def readData (s : State) (pins : Pins) : Option Word :=
  match pins.bus with
  | .idle => none
  | .read addr => some (if !pins.rstN && s.rstPrev then 0 else busRead s addr)
  | .write _ _ => none

/-- The state as a cycle begins: its input taken and its read data on bus_rdata. -/
def State.beginCycle (s : State) (pins : Pins) : State :=
  { s with inputs := s.inputs.tail, rdata := readData s pins, rstPrev := false }

/-- A reset edge: the R47 state, a running command abandoned (R270). What stands outside the unit
(the events still to come, the read data of the ending cycle, the free-value counter) is kept. -/
def State.resetEdge (s : State) : State :=
  { State.reset with inputs := s.inputs, rdata := s.rdata, powerUps := s.powerUps }

/-- The bus write of a cycle, judged against the state after the engine's step (R62, R241). -/
def busEdge (req : BusReq) (s : State) : State :=
  match req with
  | .idle => s
  | .read _ => s
  | .write addr v => busWrite s addr v

/-- One clock of a busy period that does not end at this edge (R280). -/
def State.tick (s : State) : State := { s with cycles := s.cycles - 1 }

/-! ### Power (R250, R274) -/

/-- The free bit at a place of the unspecified power-on state. -/
def powerOnBit (n place : Nat) : Bool := Config.powerOnFill n place % 2 == 1

/-- 32 free register values, at the places from `base` on. -/
def powerOnRegs (n base : Nat) : Vector FVal 32 :=
  Vector.ofFn fun i => BitVec.ofNat 256 (Config.powerOnFill n (base + i.val))

/-- The state when power comes back: any value of every register, visible or hidden, and a command
may appear to be running (R250, R274, I-U1, I-U14; log 7). -/
def State.powerOn (s : State) : State :=
  let n := s.powerUps
  { f := powerOnRegs n 100
    ctrl := { irqEn := powerOnBit n 0, umask := powerOnBit n 1 }
    status :=
      { busy := powerOnBit n 2, done := powerOnBit n 3, err := powerOnBit n 4, ovr := powerOnBit n 5
        carry := powerOnBit n 6, noroot := powerOnBit n 7, oncurve := powerOnBit n 8
        errcode := BitVec.ofNat 4 (Config.powerOnFill n 9) }
    lastCmd := BitVec.ofNat 32 (Config.powerOnFill n 10)
    snap :=
      { cmd := BitVec.ofNat 32 (Config.powerOnFill n 11)
        f := powerOnRegs n 200
        umask := powerOnBit n 12 }
    ladder :=
      { x1 := BitVec.ofNat 256 (Config.powerOnFill n 13)
        x2 := BitVec.ofNat 256 (Config.powerOnFill n 14)
        z2 := BitVec.ofNat 256 (Config.powerOnFill n 15)
        x3 := BitVec.ofNat 256 (Config.powerOnFill n 16)
        z3 := BitVec.ofNat 256 (Config.powerOnFill n 17)
        swap := powerOnBit n 18
        t := Config.powerOnFill n 19 }
    expTmp := BitVec.ofNat 256 (Config.powerOnFill n 20)
    cycles := Config.powerOnFill n 21
    rdata := none
    rstPrev := false
    inputs := s.inputs.tail
    resetDone := false
    powerUps := n + 1 }

/-! ### Placing a command for the host's check -/

/-- The state with a word accepted as a command whose busy period ends at the next edge, and an idle
cycle as the next event: the host's CMD write and the wait (R43, R280; log 2). -/
def State.loadCommand (s : State) (w : Word) : State :=
  { s.acceptFor w 1 with inputs := .cycle { rstN := true, bus := .idle } :: s.inputs }

end Sys2Proof.Machine
end

