-- ==== Sys2Proof/Machine/Edwards.lean ====
section
/-! DEFINITION. The meanings of the twisted-Edwards point arithmetic family (42_edwards R189 to R197). -/

namespace Sys2Proof.Machine

/-- EDADD: point addition on any two quads; BAD_OPERAND for an unaligned base (R190, R197, R233;
log 9). -/
def execEdadd (rd ra rb : RegIx) (s : State) : Host.Outcome State Fault Refusal :=
  if isQuadBase rd && isQuadBase ra && isQuadBase rb then
    succeed s (quadWrites rd (edAdd (s.srcQuad ra) (s.srcQuad rb))) Status.keep
  else failWith s .badOperand

/-- EDDBL: point doubling on any quad; BAD_OPERAND for an unaligned base (R194, R197, R233; log 9). -/
def execEddbl (rd ra : RegIx) (s : State) : Host.Outcome State Fault Refusal :=
  if isQuadBase rd && isQuadBase ra then
    succeed s (quadWrites rd (edDbl (s.srcQuad ra))) Status.keep
  else failWith s .badOperand

end Sys2Proof.Machine
end

