-- ==== Sys2Proof/Machine/EncodeDecode.lean ====
section
/-! DEFINITION. The meanings of the point encoding, decoding and validation family (43_encode_decode
R209 to R217). -/

namespace Sys2Proof.Machine

/-- EDENC: the 256-bit encoding of a quad; BAD_OPERAND for an unaligned base (R210, R233; log 9). -/
def execEdenc (rd ra : RegIx) (s : State) : Host.Outcome State Fault Refusal :=
  if isQuadBase ra then
    let s1 := s.setExp (invP (s.srcQuad ra).z)
    succeed s1 [(rd, edEncWith s1.expTmp (s.srcQuad ra))] Status.keep
  else failWith s .badOperand

/-- EDDEC: the decoded point, or NOT_ON_CURVE with nothing written; BAD_OPERAND, which takes
priority, for an unaligned base (R213, R233, R234; log 9). -/
def execEddec (rd ra : RegIx) (s : State) : Host.Outcome State Fault Refusal :=
  if isQuadBase rd then
    match decPoint (s.src ra) with
    | some q => succeed s (quadWrites rd q) Status.keep
    | none => failWith s .notOnCurve
  else failWith s .badOperand

/-- EDCHK: ONCURVE says whether the encoding decodes; an invalid one is no error (R217). -/
def execEdchk (ra : RegIx) (s : State) : Host.Outcome State Fault Refusal :=
  succeed s [] (Status.setOncurve (decPoint (s.src ra)).isSome)

end Sys2Proof.Machine
end

