-- ==== Sys2Proof/Machine/Field.lean ====
section
/-! DEFINITION. The meanings of the field arithmetic family (40_field R120 to R148). Each is the
command's completion on the operand snapshot (R119, R231). -/

namespace Sys2Proof.Machine

/-- NOP: nothing but the completion (R120). -/
def execNop (s : State) : Host.Outcome State Fault Refusal :=
  succeed s [] Status.keep

/-- ADD: the raw 256-bit sum, with the carry out in CARRY (R122). -/
def execAdd (rd ra rb : RegIx) (s : State) : Host.Outcome State Fault Refusal :=
  succeed s [(rd, s.src ra + s.src rb)] (Status.setCarry (carryOut (s.src ra) (s.src rb)))

/-- ADDM: (a + b) mod p (R124). -/
def execAddm (rd ra rb : RegIx) (s : State) : Host.Outcome State Fault Refusal :=
  succeed s [(rd, addP (s.src ra) (s.src rb))] Status.keep

/-- SUBM: (a − b) mod p (R126). -/
def execSubm (rd ra rb : RegIx) (s : State) : Host.Outcome State Fault Refusal :=
  succeed s [(rd, subP (s.src ra) (s.src rb))] Status.keep

/-- MULM: (a · b) mod p (R128). -/
def execMulm (rd ra rb : RegIx) (s : State) : Host.Outcome State Fault Refusal :=
  succeed s [(rd, mulP (s.src ra) (s.src rb))] Status.keep

/-- SQRM: (a · a) mod p (R130, R131). -/
def execSqrm (rd ra : RegIx) (s : State) : Host.Outcome State Fault Refusal :=
  succeed s [(rd, mulP (s.src ra) (s.src ra))] Status.keep

/-- INV: a^(p−2) mod p, by way of the exponentiation temporary (R45, R133). -/
def execInv (rd ra : RegIx) (s : State) : Host.Outcome State Fault Refusal :=
  let s1 := s.setExp (invP (s.src ra))
  succeed s1 [(rd, s1.expTmp)] Status.keep

/-- SQRT: a root or 0, and NOROOT; the candidate power stands in the exponentiation temporary (R45,
R136). -/
def execSqrt (rd ra : RegIx) (s : State) : Host.Outcome State Fault Refusal :=
  let s1 := s.setExp (sqrtCandidate (s.src ra))
  let root := sqrtFrom (s.src ra) s1.expTmp
  succeed s1 [(rd, root.r)] (Status.setNoroot root.noroot)

/-- RED: a mod p (R140). -/
def execRed (rd ra : RegIx) (s : State) : Host.Outcome State Fault Refusal :=
  succeed s [(rd, reduce (s.src ra).toNat)] Status.keep

/-- MOV: all 256 bits, no reduction (R142). -/
def execMov (rd ra : RegIx) (s : State) : Host.Outcome State Fault Refusal :=
  succeed s [(rd, s.src ra)] Status.keep

/-- CSWAP: f[rd] then f[ra], swapped when bit 0 of S(rb) is 1 (R144). -/
def execCswap (rd ra rb : RegIx) (s : State) : Host.Outcome State Fault Refusal :=
  let c := (s.src rb).getLsbD 0
  succeed s [(rd, if c then s.src ra else s.src rd), (ra, if c then s.src rd else s.src ra)]
    Status.keep

/-- LDK: a constant of the ROM; BAD_OPERAND for an index above 12 (R147, R233; log 9). -/
def execLdk (rd k : RegIx) (s : State) : Host.Outcome State Fault Refusal :=
  match krom k with
  | some v => succeed s [(rd, v)] Status.keep
  | none => failWith s .badOperand

end Sys2Proof.Machine
end

