-- ==== Sys2Proof/Machine/Ladder.lean ====
section
/-! DEFINITION. The meanings of the Montgomery ladder family (41_ladder R170 to R177). -/

namespace Sys2Proof.Machine

/-- CLAMP: scalar clamping (R170). -/
def execClamp (rd ra : RegIx) (s : State) : Host.Outcome State Fault Refusal :=
  succeed s [(rd, clampV (s.src ra))] Status.keep

/-- LSTEP: pair A is doubled in place and pair B becomes A + B, written in the order f[rd], f[rd+1],
f[ra], f[ra+1]; BAD_OPERAND for an odd base (R173, R233; log 9). -/
def execLstep (rd ra rb : RegIx) (s : State) : Host.Outcome State Fault Refusal :=
  if isPairBase rd && isPairBase ra then
    let o := lstepF (s.src rd) (s.src (rd + 1)) (s.src ra) (s.src (ra + 1)) (s.src rb)
    succeed s [(rd, o.x2), (rd + 1, o.z2), (ra, o.x3), (ra + 1, o.z3)] Status.keep
  else failWith s .badOperand

/-- The working state before the first iteration (R177). -/
def ladderStart (u : FVal) : LadderWork :=
  { x1 := reduce u.toNat, x2 := 1, z2 := 0, x3 := reduce u.toNat, z3 := 1, swap := false, t := 254 }

/-- Exchange the two running point pairs when `c` is set (R144, R177). -/
def LadderWork.swapIf (w : LadderWork) (c : Bool) : LadderWork :=
  { w with
    x2 := if c then w.x3 else w.x2
    x3 := if c then w.x2 else w.x3
    z2 := if c then w.z3 else w.z2
    z3 := if c then w.z2 else w.z3 }

/-- One iteration at bit index t: the masked swap, then the ladder step (R177). -/
def ladderIter (k : FVal) (t : Nat) (w : LadderWork) : LadderWork :=
  let kt := k.getLsbD t
  let v := w.swapIf (w.swap ^^ kt)
  let o := lstepF v.x2 v.z2 v.x3 v.z3 v.x1
  { x1 := w.x1, x2 := o.x2, z2 := o.z2, x3 := o.x3, z3 := o.z3, swap := kt, t := t }

/-- The iterations at the bit indices n − 1 down to 0 (R177). -/
def ladderLoop (k : FVal) : Nat → LadderWork → LadderWork
  | 0, w => w
  | n + 1, w => ladderLoop k n (ladderIter k n w)

/-- The working state after the 255 iterations and the last swap (R177). -/
def ladderRun (k u : FVal) : LadderWork :=
  let w := ladderLoop k 255 (ladderStart u)
  w.swapIf w.swap

/-- LADDER: (x2 · inv_p(z2)) mod p of the working state, which is cleared at completion (R45, R177). -/
def execLadder (rd ra rb : RegIx) (s : State) : Host.Outcome State Fault Refusal :=
  let s1 := s.setLadder (ladderRun (s.src ra) (s.srcU rb))
  let s2 := s1.setExp (invP s1.ladder.z2)
  succeed s2 [(rd, mulP s2.ladder.x2 s2.expTmp)] Status.keep

end Sys2Proof.Machine
end

