-- ==== Sys2Proof/Machine/Dispatch.lean ====
section
/-! DEFINITION. The completion of a decoded command, one arm for each command (60_exceptions R231). -/

namespace Sys2Proof.Machine

open Sys2Proof

def exec (i : Instr) (s : State) : Host.Outcome State Fault Refusal :=
  match i with
  -- 40_field
  | .nop => Sys2Proof.Machine.execNop s
  | .add rd ra rb => Sys2Proof.Machine.execAdd rd ra rb s
  | .addm rd ra rb => Sys2Proof.Machine.execAddm rd ra rb s
  | .subm rd ra rb => Sys2Proof.Machine.execSubm rd ra rb s
  | .mulm rd ra rb => Sys2Proof.Machine.execMulm rd ra rb s
  | .sqrm rd ra => Sys2Proof.Machine.execSqrm rd ra s
  | .inv rd ra => Sys2Proof.Machine.execInv rd ra s
  | .sqrt rd ra => Sys2Proof.Machine.execSqrt rd ra s
  | .red rd ra => Sys2Proof.Machine.execRed rd ra s
  | .mov rd ra => Sys2Proof.Machine.execMov rd ra s
  | .cswap rd ra rb => Sys2Proof.Machine.execCswap rd ra rb s
  | .ldk rd k => Sys2Proof.Machine.execLdk rd k s
  -- 41_ladder
  | .clamp rd ra => Sys2Proof.Machine.execClamp rd ra s
  | .lstep rd ra rb => Sys2Proof.Machine.execLstep rd ra rb s
  | .ladder rd ra rb => Sys2Proof.Machine.execLadder rd ra rb s
  -- 42_edwards
  | .edadd rd ra rb => Sys2Proof.Machine.execEdadd rd ra rb s
  | .eddbl rd ra => Sys2Proof.Machine.execEddbl rd ra s
  -- 43_encode_decode
  | .edenc rd ra => Sys2Proof.Machine.execEdenc rd ra s
  | .eddec rd ra => Sys2Proof.Machine.execEddec rd ra s
  | .edchk ra => Sys2Proof.Machine.execEdchk ra s

end Sys2Proof.Machine
end

