-- ==== Sys2Proof/Machine/Engine.lean ====
section
/-! DEFINITION. The engine and the clock cycle: the completion procedure (60_exceptions R231), the
busy period (70_reset_and_hazards R280), the order of events on one edge (R241), and the two agents
of the timeless model (R289). -/

namespace Sys2Proof.Machine

/-- complete(w) of R231 on the execution copy of the command word: a decode error fails, a decoded
command runs. -/
def complete (s : State) : Host.Outcome State Fault Refusal :=
  match decode s.snap.cmd with
  | .error c => failWith s c
  | .ok i => exec i s

/-- What the engine does at a clock edge: nothing when idle, one clock of the busy period, or the
completion that ends it (R280, log 13). -/
def engineEdge (s : State) : Host.Outcome State Fault Refusal :=
  if s.status.busy then
    if s.cycles ≤ 1 then complete s else .next s.tick
  else .next s

/-- One clock cycle and the edge that ends it: reset overrides, then the engine, then the bus write
(R62, R241). -/
def cycleStep (s : State) (pins : Pins) : Host.Outcome State Fault Refusal :=
  if pins.rstN then
    match engineEdge (s.beginCycle pins) with
    | .next t => .next (busEdge pins.bus t)
    | .fault r => .fault r
    | .refused r => .refused r
  else .next (s.beginCycle pins).resetEdge

/-- One event from outside (log 1). -/
def eventStep (s : State) (i : Input) : Host.Outcome State Fault Refusal :=
  match i with
  | .cycle pins => cycleStep s pins
  | .clockStopped => .next s.popInput
  | .powerCycle => .next s.powerOn

/-! ### The timeless model (R289) -/

/-- The steps of R289's interleaved agents: one bus transaction of the host, the engine's
completion, a reset. -/
inductive AgentStep where
  | host (req : BusReq)
  | engine
  | reset
  deriving DecidableEq, Repr

/-- A host step takes no clock: the read data is that of the state it finds, a write acts (R289). -/
def hostStep (req : BusReq) (s : State) : State :=
  busEdge req { s with rdata := readData s { rstN := true, bus := req } }

/-- One step of the timeless model; the engine's is enabled while BUSY = 1, and none is a step that
is not enabled (R289). -/
def agentStep (a : AgentStep) (s : State) : Option (Host.Outcome State Fault Refusal) :=
  match a with
  | .host req => some (.next (hostStep req s))
  | .engine => if s.status.busy then some (complete s) else none
  | .reset => some (.next s.resetEdge)

/-- An infinite run of the timeless model: the agents step as `sched` says, each step enabled, through
the states `run` (R289). -/
def agentRun (sched : Nat → AgentStep) (run : Nat → State) : Prop :=
  ∀ n, agentStep (sched n) (run n) = some (.next (run (n + 1)))

/-- Weak fairness of the engine: its step, once enabled for good, is taken (R289). -/
def weaklyFair (sched : Nat → AgentStep) (run : Nat → State) : Prop :=
  ∀ n, (∀ m, n ≤ m → (run m).status.busy = true) → ∃ m, n ≤ m ∧ sched m = .engine

/-- The infinite behaviours of the timeless model: its weakly fair runs (R289). -/
structure FairRun (sched : Nat → AgentStep) (run : Nat → State) : Prop where
  steps : agentRun sched run
  fair  : weaklyFair sched run

end Sys2Proof.Machine
end

