-- ==== Sys2Proof/Machine/Step.lean ====
section
/-! DEFINITION. The step of the machine: the next event from outside, and the host's way to place a
command where the next step runs it (log 1, log 2). -/

namespace Sys2Proof.Machine

/-- One step: the next event of `inputs`, or an idle cycle when none is left. -/
def step (s : State) : Host.Outcome State Fault Refusal := eventStep s s.nextInput

/-- `s` with the command word accepted and its busy period about to end, so that the next step
completes exactly it (log 2). -/
def State.withFetchWord (s : State) (nbits w : Nat) : State :=
  match tableWord nbits w with
  | some word => s.loadCommand word
  | none => s

end Sys2Proof.Machine
end

