-- ==== Sys2Proof/Machine/Assembler.lean ====
section
/-! DEFINITION. The spec's assembler on the host's side: pseudo-instructions as lists of commands
(30_encoding R99) and host steps as lists of bus cycles (R98). -/

namespace Sys2Proof.Machine

/-! ### Pseudo-instructions (R99). Each command of an expansion completes before the next is accepted. -/

/-- CLR fd (R99). -/
def pseudoClr (rd : RegIx) : List Instr := [.ldk rd 0]

/-- SETONE fd (R99). -/
def pseudoSetone (rd : RegIx) : List Instr := [.ldk rd 1]

/-- MENC fd, fa (R99, R219). -/
def pseudoMenc (rd ra : RegIx) : List Instr := [.red rd ra]

/-- DBLM fd, fa (R99). -/
def pseudoDblm (rd ra : RegIx) : List Instr := [.addm rd ra ra]

/-- LDBASE qd: the Edwards base point (R99, R15). -/
def pseudoLdbase (qd : RegIx) : List Instr :=
  [.ldk qd 8, .ldk (qd + 1) 9, .ldk (qd + 2) 1, .ldk (qd + 3) 10]

/-- LDIDENT qd: the identity (R99, R189). -/
def pseudoLdident (qd : RegIx) : List Instr :=
  [.ldk qd 0, .ldk (qd + 1) 1, .ldk (qd + 2) 1, .ldk (qd + 3) 0]

/-- PSWAP qd, qa, fc (R99). -/
def pseudoPswap (qd qa fc : RegIx) : List Instr :=
  [.cswap qd qa fc, .cswap (qd + 1) (qa + 1) fc, .cswap (qd + 2) (qa + 2) fc,
    .cswap (qd + 3) (qa + 3) fc]

/-! ### Host steps (R98) -/

/-- R addr: one bus read. -/
def hostR (addr : BitVec 12) : Input := .cycle { rstN := true, bus := .read (wordAddr addr) }

/-- W addr, data: one bus write. -/
def hostW (addr : BitVec 12) (data : Word) : Input :=
  .cycle { rstN := true, bus := .write (wordAddr addr) data }

/-- The byte address of word w of register n: 0x400 + 32n + 4w (R64). -/
def fieldAddr (n : RegIx) (w : Fin 8) : BitVec 12 := BitVec.ofNat 12 (0x400 + 32 * n.val + 4 * w.val)

/-- The word indices of a register, in the order R98 writes them. -/
def wordIndices : List (Fin 8) := [0, 1, 2, 3, 4, 5, 6, 7]

/-- WF fN, value: eight writes. -/
def hostWF (n : RegIx) (v : FVal) : List Input :=
  wordIndices.map fun w => hostW (fieldAddr n w) (wordOf v w)

/-- RF fN: eight reads. -/
def hostRF (n : RegIx) : List Input := wordIndices.map fun w => hostR (fieldAddr n w)

/-- The CMD write of a command line; the WAIT that follows it polls STATUS, one read a cycle. -/
def hostCommand (i : Instr) : Input := hostW 0x010#12 (encode i)

/-- One poll of WAIT: a read of STATUS. -/
def hostPoll : Input := hostR 0x00C#12

/-- One cycle of reset (R270). -/
def hostReset : Input := .cycle { rstN := false, bus := .idle }

end Sys2Proof.Machine
end

