-- ==== Sys2Proof/Safety.lean ====
section
/-! DEFINITION. The invariants of the unit and the duties of its host, in the terms the statements
use (10_state R36, R45; 40_field R119; 60_exceptions R232; 70_reset_and_hazards R281). -/

namespace Sys2Proof.Safety

open Sys2Proof.Machine

/-- DONE and BUSY never hold together; ERR only with a code; no code above 4; a running command has
cleared ERR and ERRCODE (R36, R43, R232). -/
abbrev StatusOk (t : Status) : Prop :=
  ¬(t.busy = true ∧ t.done = true) ∧ (t.err = true → t.errcode ≠ 0) ∧ t.errcode.toNat ≤ 4 ∧
    (t.busy = true → t.err = false ∧ t.errcode = 0)

/-- While a command runs, the execution copy, the snapshot and the visible state agree, and its
completion edge is still to come (R45, R119, R280). -/
abbrev RunningOk (s : State) : Prop :=
  s.status.busy = true → s.snap = s.snapshot s.lastCmd ∧ 1 ≤ s.cycles

/-- Outside a command the hidden state is zero, the ladder working state and the exponentiation
temporary at every edge (R45, R47; log 4). -/
abbrev HiddenOk (s : State) : Prop :=
  (s.status.busy = false → s.snap = Snapshot.cleared ∧ s.cycles = 0) ∧
    s.ladder = LadderWork.cleared ∧ s.expTmp = 0

/-- Whether ERRCODE is one that a completed command word can have left: the decode-time code of a word
that does not decode, NONE or NOT_ON_CURVE for EDDEC, NONE for every other command (R233, R36). -/
def errcodeFits (w : Word) (c : BitVec 4) : Bool :=
  match decode w with
  | .error e => c == e.code
  | .ok (.eddec _ _) => c == 0 || c == CmdError.notOnCurve.code
  | .ok _ => c == 0

/-- ERRCODE reports the last accepted command, once it has completed (R36, R43). -/
abbrev ErrcodeOk (s : State) : Prop :=
  s.status.busy = false → errcodeFits s.lastCmd s.status.errcode = true

/-- The invariant of every state since a reset edge. Before the first reset edge after power-on no
register holds a specified value (R274), so nothing is said of it there. -/
abbrev Inv (s : State) : Prop :=
  s.resetDone = true → StatusOk s.status ∧ RunningOk s ∧ HiddenOk s ∧ ErrcodeOk s

/-- What the completion of a command leaves alone or clears, whatever it writes: CTRL, LASTCMD and all
that stands outside the unit are kept, the hidden state is cleared (R231, R45). The field registers
and STATUS are said apart. -/
structure CompletionFrame (s t : State) : Prop where
  ctrl      : t.ctrl = s.ctrl
  lastCmd   : t.lastCmd = s.lastCmd
  snap      : t.snap = Snapshot.cleared
  ladder    : t.ladder = LadderWork.cleared
  expTmp    : t.expTmp = 0
  cycles    : t.cycles = 0
  rdata     : t.rdata = s.rdata
  rstPrev   : t.rstPrev = s.rstPrev
  inputs    : t.inputs = s.inputs
  resetDone : t.resetDone = s.resetDone
  powerUps  : t.powerUps = s.powerUps

/-- Every field register but the listed destinations is unchanged. -/
def OthersKept (s t : State) (dests : List RegIx) : Prop :=
  ∀ j : RegIx, j ∉ dests → t.f[j.val] = s.f[j.val]

/-- What a bus transaction must not be while a command runs (R281 duties 1 to 3): a write of the
f-window, CTRL or CMD, a read of the f-window, or a STATUS write that clears DONE. -/
def transactionInDuty (busy : Bool) (req : BusReq) : Bool :=
  match req with
  | .idle => true
  | .read addr =>
    match windowReg addr with
    | .id => true
    | .version => true
    | .ctrl => true
    | .status => true
    | .cmd => true
    | .reserved => true
    | .field _ _ => !busy
  | .write addr v =>
    match windowReg addr with
    | .id => true
    | .version => true
    | .ctrl => !busy
    | .status => !busy || !v.getLsbD 1
    | .cmd => !busy
    | .reserved => true
    | .field _ _ => !busy

/-- The next event is a clock cycle without reset that keeps the host's duties 1 to 3 (R281). -/
def inDuty (s : State) : Bool :=
  match s.nextInput with
  | .cycle pins => pins.rstN && transactionInDuty s.status.busy pins.bus
  | .clockStopped => false
  | .powerCycle => false

/-- The state with what R289's timeless model does not have taken out: the cycle counter, the events
still to come and the memory of the last edge. -/
def untimed (s : State) : State := { s with cycles := 0, inputs := [], rstPrev := false }

end Sys2Proof.Safety
end

