-- ==== Sys2Proof/Certificates/Slice0/Obligations.lean ====
section
/-! DEFINITION. The statements for the provers, from the numbered rules of spec/. The reference
functions are written again here, in numbers and in the ring of residues mod p, apart from the
machine's own. -/

namespace Sys2Proof.Claims

open Sys2Proof Sys2Proof.Machine Sys2Proof.Safety

/-! ### Numbers and residues -/

/-- p = 2^255 − 19 (R8). -/
def P : Nat := 2 ^ 255 - 19

/-- The ring of residues mod p. -/
abbrev F := ZMod fieldP

/-- S(i) as a number (R12, R119). -/
def S (s : State) (i : RegIx) : Nat := s.snap.f[i.val].toNat

/-- S(i) as a residue. -/
def SF (s : State) (i : RegIx) : F := (S s i : F)

/-- f[i] as a number. -/
def D (t : State) (i : RegIx) : Nat := t.f[i.val].toNat

/-! ### How a command ends -/

/-- STATUS after a completion that writes no flag of its own (R231). -/
def finished (st : Status) : Status := { st with busy := false, done := true }

/-- STATUS after a failed completion (R231). -/
def failed (st : Status) (code : BitVec 4) : Status :=
  { st with busy := false, done := true, err := true, errcode := code }

/-- The command answers a next state: STATUS is `status`, the destinations satisfy `result`, every
other register and everything else that a completion does not clear is unchanged. -/
def Completes (i : Instr) (s : State) (dests : List RegIx) (status : Status)
    (result : State → Prop) : Prop :=
  ∃ t, exec i s = .next t ∧ CompletionFrame s t ∧ OthersKept s t dests ∧ t.status = status ∧ result t

/-- The command answers a next state in which it has failed with a code: no register and no result
flag is written (R231, R242). -/
def Fails (i : Instr) (s : State) (code : BitVec 4) : Prop :=
  ∃ t, exec i s = .next t ∧ CompletionFrame s t ∧ t.f = s.f ∧ t.status = failed s.status code

/-! ### Command words (R90, R91) -/

/-- op of a word (R91). -/
def wOp (w : Word) : Nat := w.toNat % 64

/-- rd of a word (R91). -/
def wRd (w : Word) : RegIx := Fin.ofNat 32 (w.toNat / 2 ^ 6)

/-- ra of a word (R91). -/
def wRa (w : Word) : RegIx := Fin.ofNat 32 (w.toNat / 2 ^ 11)

/-- rb of a word (R91). -/
def wRb (w : Word) : RegIx := Fin.ofNat 32 (w.toNat / 2 ^ 16)

/-- res of a word (R91). -/
def wRes (w : Word) : Nat := w.toNat / 2 ^ 21

/-- res ≠ 0. -/
def resUsed (w : Word) : Prop := wRes w ≠ 0

/-- rb ≠ 0 or res ≠ 0. -/
def rbResUsed (w : Word) : Prop := wRb w ≠ 0 ∨ wRes w ≠ 0

/-- No operand of the command can be illegal. -/
def noneBad (_ : Word) : Prop := False

/-- How the words with an opcode decode: RESERVED_FIELD first, then BAD_OPERAND, else the command
(R93, R96, R233). -/
def WordRule (op : Nat) (reserved bad : Word → Prop) (i : Word → Instr) : Prop :=
  ∀ w : Word, wOp w = op →
    (reserved w → decode w = .error .reservedField) ∧
    (¬reserved w → bad w → decode w = .error .badOperand) ∧
    (¬reserved w → ¬bad w → decode w = .ok (i w))

/-! ### Reference functions -/

/-- d (R15). -/
def dF : F := (0x52036cee2b6ffe738cc740797779e89800700a4d4141d8ab75eb4dca135978a3 : Nat)

/-- SQRTM1 (R15). -/
def iF : F := (0x2b8324804fc1df0b2b4d00993dfbd7a72f431806ad2fe478c4ee1b274a0ea0b0 : Nat)

/-- inv_p (R11). -/
def invF (a : F) : F := a ^ (P - 2)

/-- The square-root rule of R136: a root, or none. -/
def rootRef (a : F) : Option F :=
  let b := a ^ ((P + 3) / 8)
  if b * b = a then some b else if b * b = -a then some (b * iF) else none

/-- Four residues: (x2, z2, x3, z3) of a ladder step, or (X, Y, Z, T) of a point. -/
abbrev F4 := F × F × F × F

/-- LSTEPF (R172), with a24 = 121665. -/
def lstepRef (q : F4) (x1 : F) : F4 :=
  let (x2, z2, x3, z3) := q
  let a := x2 + z2
  let b := x2 - z2
  let e := a ^ 2 - b ^ 2
  let da := (x3 - z3) * a
  let cb := (x3 + z3) * b
  (a ^ 2 * b ^ 2, e * (a ^ 2 + 121665 * e), (da + cb) ^ 2, x1 * (da - cb) ^ 2)

/-- The two point pairs exchanged when `c` is set (R177). -/
def swapRef (c : Bool) (q : F4) : F4 :=
  if c then (q.2.2.1, q.2.2.2, q.1, q.2.1) else q

/-- The ladder of R177 over the bits 254 down to 0 of k, before the inversion. -/
def ladderRef (k : Nat) (x1 : F) : F4 :=
  let r := (List.range 255).reverse.foldl
    (fun (st : F4 × Bool) t => (lstepRef (swapRef (st.2 ^^ k.testBit t) st.1) x1, k.testBit t))
    ((1, 0, x1, 1), false)
  swapRef r.2 r.1

/-- LADDER's u operand: bit 255 cleared when UMASK is 1 (R177). -/
def uOf (s : State) (i : RegIx) : Nat := if s.snap.umask then S s i % 2 ^ 255 else S s i

/-- EDADD's formula (R190). -/
def edAddRef (p q : F4) : F4 :=
  let (x1, y1, z1, t1) := p
  let (x2, y2, z2, t2) := q
  let a := (y1 - x1) * (y2 - x2)
  let b := (y1 + x1) * (y2 + x2)
  let c := t1 * (2 * dF) * t2
  let d := 2 * z1 * z2
  ((b - a) * (d - c), (d + c) * (b + a), (d - c) * (d + c), (b - a) * (b + a))

/-- EDDBL's formula (R194). -/
def edDblRef (p : F4) : F4 :=
  let (x1, y1, z1, _) := p
  let a := x1 ^ 2
  let b := y1 ^ 2
  let c := 2 * z1 ^ 2
  let h := a + b
  let e := h - (x1 + y1) ^ 2
  let g := a - b
  let f := c + g
  (e * f, g * h, f * g, e * h)

/-- The quad of the snapshot at base i, as residues (R22). -/
def quadF (s : State) (i : RegIx) : F4 := (SF s i, SF s (i + 1), SF s (i + 2), SF s (i + 3))

/-- The registers of a quad hold the canonical values of four residues. -/
def QuadIs (t : State) (i : RegIx) (q : F4) : Prop :=
  D t i = q.1.val ∧ D t (i + 1) = q.2.1.val ∧ D t (i + 2) = q.2.2.1.val ∧ D t (i + 3) = q.2.2.2.val

/-- The registers of a quad. -/
def quadRegs (i : RegIx) : List RegIx := [i, i + 1, i + 2, i + 3]

/-- DEC of R212: a point, or none for REJECT. -/
def decRef (v : Nat) : Option F4 :=
  let y := v % 2 ^ 255
  let s := v / 2 ^ 255
  if P ≤ y then none
  else
    let u : F := (y : F) * y - 1
    let w : F := dF * y * y + 1
    match rootRef (u * invF w) with
    | none => none
    | some r =>
      if r = 0 ∧ s = 1 then none
      else
        let x := if r.val % 2 ≠ s then -r else r
        some (x, (y : F), 1, x * y)

/-- The Edwards curve −x² + y² = 1 + d·x²·y² (R16). -/
def OnCurve (x y : F) : Prop := -x ^ 2 + y ^ 2 = 1 + dF * x ^ 2 * y ^ 2

/-- v is the encoding of a point of the curve: canonical y in bits 254:0, bit 0 of x in bit 255 (R209). -/
def EncodesPoint (v : Nat) (x y : F) : Prop :=
  OnCurve x y ∧ v = y.val + 2 ^ 255 * (x.val % 2)

/-- A quad that represents a point in the sense of R189: Z is not 0, T·Z = X·Y, and the curve equation
made homogeneous with it. -/
def ExtendedPoint (q : F4) : Prop :=
  q.2.2.1 ≠ 0 ∧ q.2.2.2 * q.2.2.1 = q.1 * q.2.1 ∧ q.2.1 ^ 2 - q.1 ^ 2 = q.2.2.1 ^ 2 + dF * q.2.2.2 ^ 2

/-- Two quads represent one affine point: X and Y agree after clearing Z. -/
def SamePoint (p q : F4) : Prop := p.1 * q.2.2.1 = q.1 * p.2.2.1 ∧ p.2.1 * q.2.2.1 = q.2.1 * p.2.2.1

/-- The destination registers of a command (R24). -/
def dests : Instr → List RegIx
  | .nop => []
  | .add rd _ _ => [rd]
  | .addm rd _ _ => [rd]
  | .subm rd _ _ => [rd]
  | .mulm rd _ _ => [rd]
  | .sqrm rd _ => [rd]
  | .inv rd _ => [rd]
  | .sqrt rd _ => [rd]
  | .red rd _ => [rd]
  | .mov rd _ => [rd]
  | .cswap rd ra _ => [rd, ra]
  | .ldk rd _ => [rd]
  | .clamp rd _ => [rd]
  | .lstep rd ra _ => [rd, rd + 1, ra, ra + 1]
  | .ladder rd _ _ => [rd]
  | .edadd rd _ _ => quadRegs rd
  | .eddbl rd _ => quadRegs rd
  | .edenc rd _ => [rd]
  | .eddec rd _ => quadRegs rd
  | .edchk _ => []

/-- A snapshot with every register reduced mod p. -/
def reducedSnap (s : State) : State :=
  { s with snap := { s.snap with f := s.snap.f.map fun v => BitVec.ofNat 256 (v.toNat % P) } }

/-- The commands that compute on the residues of their operands alone (R121, R151). LADDER's scalar
and the encodings of EDDEC and EDCHK are no field elements. -/
def residueCommand : Instr → Bool
  | .addm _ _ _ => true
  | .subm _ _ _ => true
  | .mulm _ _ _ => true
  | .sqrm _ _ => true
  | .inv _ _ => true
  | .sqrt _ _ => true
  | .red _ _ => true
  | .lstep _ _ _ => true
  | .edadd _ _ _ => true
  | .eddbl _ _ => true
  | .edenc _ _ => true
  | .nop => false
  | .add _ _ _ => false
  | .mov _ _ => false
  | .cswap _ _ _ => false
  | .ldk _ _ => false
  | .clamp _ _ => false
  | .ladder _ _ _ => false
  | .eddec _ _ => false
  | .edchk _ => false

/-! ### Host steps -/

/-- Everything outside the hidden timing that two runs with different operand values share (R285). -/
structure SameTiming (s s' : State) : Prop where
  busy      : s.status.busy = s'.status.busy
  done      : s.status.done = s'.status.done
  ovr       : s.status.ovr = s'.status.ovr
  ctrl      : s.ctrl = s'.ctrl
  lastCmd   : s.lastCmd = s'.lastCmd
  cmd       : s.snap.cmd = s'.snap.cmd
  cycles    : s.cycles = s'.cycles
  rstPrev   : s.rstPrev = s'.rstPrev
  inputs    : s.inputs = s'.inputs
  resetDone : s.resetDone = s'.resetDone
  powerUps  : s.powerUps = s'.powerUps

/-- The timeless model run over a list of agents' steps (R289). -/
def runAgents : List AgentStep → State → Option State
  | [], s => some s
  | a :: rest, s =>
    match agentStep a s with
    | some (.next t) => runAgents rest t
    | some (.fault _) => none
    | some (.refused _) => none
    | none => none

/-- The agents' steps of one clock cycle (R241, R289): reset alone; on the completion edge the engine and the
host, the host first when it reads, since a read gives the state before the edge (R62); else the host. -/
def cycleAgents (s : State) (pins : Pins) : List AgentStep :=
  if pins.rstN then
    if s.status.busy ∧ s.cycles ≤ 1 then
      match pins.bus with
      | .idle => [.engine, .host .idle]
      | .read a => [.host (.read a), .engine]
      | .write a v => [.engine, .host (.write a v)]
    else [.host pins.bus]
  else [.reset]

/-- Of the next n events, those that are listed are clock cycles without reset, with any bus transaction;
an event that is not listed is an idle cycle (log 1). -/
def ClockedFor (n : Nat) (s : State) : Prop :=
  ∀ e ∈ s.inputs.take n, ∃ bus, e = .cycle { rstN := true, bus := bus }

/-- The host issues a command on an idle unit and waits for its completion (R98). -/
def afterCommand (i : Instr) (s : State) : State :=
  match exec i (s.accept (encode i)) with
  | .next t => t
  | .fault _ => s
  | .refused _ => s

/-- Both CSWAPs of R178. -/
def handSwap (a b sw : RegIx) (s : State) : State :=
  afterCommand (.cswap (a + 1) (b + 1) sw) (afterCommand (.cswap a b sw) s)

/-- One round of the loop of R178 at bit t of k. -/
def handRound (a b x sw : RegIx) (k t : Nat) (s : State) : State :=
  let s1 := s.writeReg sw (BitVec.ofNat 256 ((s.f[sw.val].getLsbD 0 ^^ k.testBit t).toNat))
  let s2 := (handSwap a b sw s1)
  let s3 := s2.writeReg sw (BitVec.ofNat 256 (k.testBit t).toNat)
  afterCommand (.lstep a b x) s3

/-- The host sequence of R178, from its starting values in the registers on. -/
def handLadder (a b x sw i d : RegIx) (k : Nat) (s : State) : State :=
  let s1 := (List.range 255).reverse.foldl (fun st t => handRound a b x sw k t st) s
  let s2 := handSwap a b sw s1
  afterCommand (.mulm d a i) (afterCommand (.inv i (a + 1)) s2)

end Sys2Proof.Claims

open Sys2Proof Sys2Proof.Machine Sys2Proof.Safety Sys2Proof.Claims

/-! ## Encoding -/

/-- Every encoded example of R100 decodes to the command it stands for. -/
def Obligations.EncodedExamplesDecode : Prop :=
  decode 0x00000000#32 = .ok .nop ∧ decode 0x000208C1#32 = .ok (.add 3 1 2) ∧
  decode 0x000208C2#32 = .ok (.addm 3 1 2) ∧ decode 0x000208C3#32 = .ok (.subm 3 1 2) ∧
  decode 0x000208C4#32 = .ok (.mulm 3 1 2) ∧ decode 0x000008C5#32 = .ok (.sqrm 3 1) ∧
  decode 0x000008C6#32 = .ok (.inv 3 1) ∧ decode 0x000008C7#32 = .ok (.sqrt 3 1) ∧
  decode 0x000008C8#32 = .ok (.red 3 1) ∧ decode 0x000008C9#32 = .ok (.mov 3 1) ∧
  decode 0x000208CA#32 = .ok (.cswap 3 1 2) ∧ decode 0x0000410B#32 = .ok (.ldk 4 8) ∧
  decode 0x00000850#32 = .ok (.clamp 1 1) ∧ decode 0x00013111#32 = .ok (.lstep 4 6 1) ∧
  decode 0x000208D2#32 = .ok (.ladder 3 1 2) ∧ decode 0x00040220#32 = .ok (.edadd 8 0 4) ∧
  decode 0x00002121#32 = .ok (.eddbl 4 4) ∧ decode 0x00002230#32 = .ok (.edenc 8 4) ∧
  decode 0x00000131#32 = .ok (.eddec 4 0) ∧ decode 0x00000032#32 = .ok (.edchk 0)

/-- Undefined opcodes are ILLEGAL_OPCODE whatever the other fields hold, and no defined one is (R95). -/
def Obligations.UndefinedOpcodesIllegal : Prop :=
  ∀ w : Word, decode w = .error .illegalOpcode ↔
    (0x0C ≤ wOp w ∧ wOp w ≤ 0x0F) ∨ (0x13 ≤ wOp w ∧ wOp w ≤ 0x1F) ∨
    (0x22 ≤ wOp w ∧ wOp w ≤ 0x2F) ∨ (0x33 ≤ wOp w ∧ wOp w ≤ 0x3F)

/-- Decoding the encoding of a well-formed command gives it back (R91, R94, R96). -/
def Obligations.DecodeEncode : Prop :=
  ∀ i : Instr, i.wellFormed = true → decode (encode i) = .ok i

/-- A word that decodes is the encoding of what it decodes to, which is well formed: every word
matches at most one command and no bit of it is ignored (R93, R95). -/
def Obligations.EncodeDecode : Prop :=
  ∀ (w : Word) (i : Instr), decode w = .ok i → encode i = w ∧ i.wellFormed = true

/-! ## Reset, registers and the window -/

/-- The state after reset (R47). -/
def Obligations.ResetValues : Prop :=
  (∀ i : RegIx, State.reset.f[i.val] = 0) ∧
  memRead State.reset 0x000#12 = 0x4A443235#32 ∧ memRead State.reset 0x004#12 = 0x00010000#32 ∧
  State.reset.ctrl = { irqEn := false, umask := true } ∧
  State.reset.status =
    { busy := false, done := false, err := false, ovr := false
      carry := false, noroot := false, oncurve := false, errcode := 0 } ∧
  State.reset.lastCmd = 0 ∧ memRead State.reset 0x010#12 = 0 ∧
  (∀ i : RegIx, State.reset.snap.f[i.val] = 0) ∧ State.reset.snap.cmd = 0 ∧
  State.reset.snap.umask = false ∧
  State.reset.ladder = { x1 := 0, x2 := 0, z2 := 0, x3 := 0, z3 := 0, swap := false, t := 0 } ∧
  State.reset.expTmp = 0 ∧ State.reset.cycles = 0 ∧ State.reset.irq = false

/-- Every word address decodes to the one row of R63 that its byte address lies in, and no address
has a second name (R65). -/
def Obligations.AddressMap : Prop :=
  (∀ a : BusAddr,
    (windowReg a = .id ↔ 4 * a.toNat = 0x000) ∧ (windowReg a = .version ↔ 4 * a.toNat = 0x004) ∧
    (windowReg a = .ctrl ↔ 4 * a.toNat = 0x008) ∧ (windowReg a = .status ↔ 4 * a.toNat = 0x00C) ∧
    (windowReg a = .cmd ↔ 4 * a.toNat = 0x010) ∧
    (windowReg a = .reserved ↔
      (0x014 ≤ 4 * a.toNat ∧ 4 * a.toNat ≤ 0x3FC) ∨ (0x800 ≤ 4 * a.toNat ∧ 4 * a.toNat ≤ 0xFFC)) ∧
    ∀ (n : RegIx) (w : Fin 8),
      windowReg a = .field n w ↔ 4 * a.toNat = 0x400 + 32 * n.val + 4 * w.val) ∧
  ∀ a b : BusAddr, windowReg a = windowReg b → a = b ∨ windowReg a = .reserved

/-- Reserved addresses read as 0, and writes to them do nothing, busy or not (R66). -/
def Obligations.ReservedAddresses : Prop :=
  ∀ (s : State) (a : BusAddr) (v : Word),
    (0x014 ≤ 4 * a.toNat ∧ 4 * a.toNat ≤ 0x3FC) ∨ 0x800 ≤ 4 * a.toNat →
    busRead s a = 0 ∧ busWrite s a v = s

/-- ID and VERSION read their constants and ignore writes, busy or not, without OVR (R31, R32). -/
def Obligations.IdentityRegisters : Prop :=
  ∀ (s : State) (v : Word),
    memRead s 0x000#12 = 0x4A443235#32 ∧ memRead s 0x004#12 = 0x00010000#32 ∧
    memWrite s 0x000#12 v = s ∧ memWrite s 0x004#12 v = s

/-- CTRL as read and as written while the unit is idle (R34). -/
def Obligations.CtrlAccess : Prop :=
  (∀ s : State, (memRead s 0x008#12).toNat = 2 * s.ctrl.umask.toNat + s.ctrl.irqEn.toNat) ∧
  ∀ (s : State) (v : Word), s.status.busy = false →
    memWrite s 0x008#12 v = { s with ctrl := { irqEn := v.getLsbD 0, umask := v.getLsbD 1 } }

/-- STATUS as read, and a write that clears DONE, ERR and OVR where it holds ones, busy or not (R35). -/
def Obligations.StatusAccess : Prop :=
  (∀ s : State, (memRead s 0x00C#12).toNat =
    s.status.busy.toNat + 2 * s.status.done.toNat + 4 * s.status.err.toNat
      + 8 * s.status.ovr.toNat + 16 * s.status.carry.toNat + 32 * s.status.noroot.toNat
      + 64 * s.status.oncurve.toNat + 256 * s.status.errcode.toNat) ∧
  ∀ (s : State) (v : Word), memWrite s 0x00C#12 v =
    { s with status := { s.status with
        done := if v.getLsbD 1 then false else s.status.done
        err := if v.getLsbD 2 then false else s.status.err
        ovr := if v.getLsbD 3 then false else s.status.ovr } }

/-- A CMD write while idle accepts the word, takes the snapshot and starts the latency of that word: one
latency for every word that does not decode, the opcode's for one that does; a read gives the last
accepted word; while busy the write is dropped (R43, R119, R280). Any word is accepted. -/
def Obligations.CommandAcceptance : Prop :=
  (∀ s : State, memRead s 0x010#12 = s.lastCmd) ∧
  (∀ (s : State) (w : Word), s.status.busy = false →
    memWrite s 0x010#12 w =
      { s with
        lastCmd := w
        status := { s.status with busy := true, done := false, err := false, errcode := 0 }
        snap := { cmd := w, f := s.f, umask := s.ctrl.umask }
        cycles := latencyOf w }) ∧
  (∀ w : Word, 1 ≤ latencyOf w ∧ (∀ c, decode w = .error c → latencyOf w = Config.errLatency) ∧
    ∀ i, decode w = .ok i → latencyOf w = Config.latency i.opcode) ∧
  ∀ (s : State) (w : Word), s.status.busy = true →
    memWrite s 0x010#12 w = { s with status := { s.status with ovr := true } }

/-- The field register window while idle: word w of register n is bits [32w+31 : 32w], a write
replaces them and nothing else (R64). -/
def Obligations.FieldWindow : Prop :=
  ∀ (s : State) (n : RegIx) (w : Fin 8) (v : Word), s.status.busy = false →
    let addr := BitVec.ofNat 12 (0x400 + 32 * n.val + 4 * w.val)
    let t := memWrite s addr v
    memRead s addr = s.f[n.val].extractLsb' (32 * w.val) 32 ∧
    (∀ j < 256, t.f[n.val].getLsbD j =
      if 32 * w.val ≤ j ∧ j < 32 * w.val + 32 then v.getLsbD (j - 32 * w.val) else s.f[n.val].getLsbD j) ∧
    (∀ m : RegIx, m ≠ n → t.f[m.val] = s.f[m.val]) ∧ t = { s with f := t.f }

/-- Byte k of a register's little-endian encoding travels in word k / 4, in lane k mod 4 (R67). -/
def Obligations.ByteLanes : Prop :=
  ∀ (s : State) (n k : Fin 32), s.status.busy = false →
    (memRead s (BitVec.ofNat 12 (0x400 + 32 * n.val + 4 * (k.val / 4)))).toNat / 2 ^ (8 * (k.val % 4)) % 256
      = s.f[n.val].toNat / 256 ^ k.val % 256

/-- Accesses while BUSY = 1: what is read as 0, what is dropped with OVR, what is performed (R70). -/
def Obligations.BusyAccess : Prop :=
  ∀ (s : State) (v : Word), s.status.busy = true →
    (∀ (n : RegIx) (w : Fin 8),
      memRead s (BitVec.ofNat 12 (0x400 + 32 * n.val + 4 * w.val)) = 0 ∧
      memWrite s (BitVec.ofNat 12 (0x400 + 32 * n.val + 4 * w.val)) v
        = { s with status := { s.status with ovr := true } }) ∧
    memWrite s 0x008#12 v = { s with status := { s.status with ovr := true } } ∧
    memWrite s 0x010#12 v = { s with status := { s.status with ovr := true } } ∧
    memWrite s 0x00C#12 v =
      { s with status := { s.status with
          done := s.status.done && !v.getLsbD 1
          err := s.status.err && !v.getLsbD 2
          ovr := s.status.ovr && !v.getLsbD 3 } } ∧
    memRead s 0x000#12 = 0x4A443235#32 ∧ memRead s 0x004#12 = 0x00010000#32 ∧
    (memRead s 0x008#12).toNat = 2 * s.ctrl.umask.toNat + s.ctrl.irqEn.toNat ∧
    memRead s 0x00C#12 = s.status.toWord ∧ memRead s 0x010#12 = s.lastCmd ∧
    memWrite s 0x000#12 v = s ∧ memWrite s 0x004#12 v = s ∧
    ∀ a : BusAddr, (0x014 ≤ 4 * a.toNat ∧ 4 * a.toNat ≤ 0x3FC) ∨ 0x800 ≤ 4 * a.toNat →
      busRead s a = 0 ∧ busWrite s a v = s

/-- A read has no side effect at any address: a cycle with a read leaves what an idle cycle leaves,
but for the read data (R72). -/
def Obligations.ReadsHaveNoSideEffect : Prop :=
  ∀ (s : State) (a : BusAddr) (r : Bool) (rest : List Input),
    ∃ t u, step { s with inputs := .cycle { rstN := r, bus := .read a } :: rest } = .next t ∧
      step { s with inputs := .cycle { rstN := r, bus := .idle } :: rest } = .next u ∧
      { t with rdata := none } = { u with rdata := none }

/-! ## Completion, the cycle, reset and the interrupt -/

/-- On the edge that ends a busy period the step runs the decoded command, then the cycle's bus
write; in any other cycle without reset it serves the bus alone, a read with its data from the state at the
start of the cycle, and one clock of a running command goes by (R62, R75, R280). A placed command is the
one the next step runs (R231, R241; log 2 for the placing, log 5 for no read data in a cycle without a
read, log 13 for a counter at 0). -/
def Obligations.StepRunsDecodedCommand : Prop :=
  (∀ (s : State) (pins : Pins) (i : Instr) (t : State),
    s.nextInput = .cycle pins → pins.rstN = true → s.status.busy = true → s.cycles ≤ 1 →
    decode s.snap.cmd = .ok i → exec i (s.beginCycle pins) = .next t →
    step s = .next (busEdge pins.bus t)) ∧
  (∀ (s : State) (pins : Pins),
    s.nextInput = .cycle pins → pins.rstN = true → s.status.busy = false ∨ 1 < s.cycles →
    let b : State :=
      { s with
        cycles := if s.status.busy then s.cycles - 1 else s.cycles
        inputs := s.inputs.tail
        rdata := none
        rstPrev := false }
    (pins.bus = .idle → step s = .next b) ∧
    (∀ a, pins.bus = .read a → step s = .next { b with rdata := some (busRead s a) }) ∧
    ∀ a v, pins.bus = .write a v → step s = .next (busWrite b a v)) ∧
  ∀ (s : State) (w : Word) (i : Instr), decode w = .ok i →
    step (s.withFetchWord 32 w.toNat) =
      exec i ((s.loadCommand w).beginCycle { rstN := true, bus := .idle })

/-- A word that does not decode completes with its code, and the state differs from the one before
only in BUSY, DONE, ERR and ERRCODE and in the hidden state (R231, R242). -/
def Obligations.DecodeErrorPrecise : Prop :=
  ∀ (s : State) (c : CmdError), decode s.snap.cmd = .error c →
    ∃ t, complete s = .next t ∧ CompletionFrame s t ∧ t.f = s.f ∧
      t.status = failed s.status c.code ∧ 1 ≤ c.code.toNat ∧ c.code.toNat ≤ 3

/-- Every step of every state answers a next state: the unit has no trap and no bus error (R66, R230).
This is the model's own reading (log 15); over the events that are no clock edge it rests on a stopped
clock (log 8) and a return of power (log 7) having a next state. -/
def Obligations.StepNeverStops : Prop := ∀ s : State, ∃ t, step s = .next t

/-- Completion and bus write on one edge: the write is judged against the state after the completion,
so a CMD write starts the next command on the results, a STATUS write clears the new DONE, a CTRL write and
an f-window write are performed, and a read gives the state before the edge (R62, R241; log 13 for a counter at 0). -/
def Obligations.CompletionBeforeBusWrite : Prop :=
  ∀ (s : State) (req : BusReq) (rest : List Input),
    s.inputs = .cycle { rstN := true, bus := req } :: rest → s.status.busy = true → s.cycles ≤ 1 →
    ∃ t u, complete { s with inputs := rest, rdata := none, rstPrev := false } = .next t ∧
      step s = .next u ∧ t.status.busy = false ∧ t.status.done = true ∧
      (∀ a, req = .read a → u = { t with rdata := some (busRead s a) }) ∧
      (∀ w, req = .write 4 w → u.lastCmd = w ∧ u.status.busy = true ∧ u.status.done = false ∧
        u.snap.f = t.f ∧ u.f = t.f ∧ u.status.ovr = s.status.ovr) ∧
      (∀ v, req = .write 3 v → v.getLsbD 1 = true → u.status.done = false ∧ u.f = t.f) ∧
      (∀ v, req = .write 2 v →
        u = { t with ctrl := { irqEn := v.getLsbD 0, umask := v.getLsbD 1 } }) ∧
      ∀ (n : RegIx) (w : Fin 8) (v : Word),
        req = .write (BitVec.ofNat 10 (0x100 + 8 * n.val + w.val)) v →
        u.f[n.val].extractLsb' (32 * w.val) 32 = v ∧ u.status = t.status

/-- The busy period: after a word is accepted and no more bus access comes, BUSY stays 1 and nothing
visible changes for fewer than LAT edges, and edge LAT is the completion; with any bus accesses in it the
same holds but for OVR and the read data, and edge LAT is the completion and then the bus write of its
cycle (R280, R70). In the timeless model weak fairness makes BUSY fall again and again, so that a host that
polls sees it (R289). The latencies are log 3, an event that is not listed is an idle cycle (log 1)
without read data (log 5), and the working state at 0 inside the busy period is log 4. -/
def Obligations.BusyPeriodLength : Prop :=
  (∀ (s : State) (w : Word), s.inputs = [] →
    let a := { s.accept w with rdata := none, rstPrev := false }
    1 ≤ latencyOf w ∧
    (∀ n, 1 ≤ n → n < latencyOf w →
      Sys2Proof.core.run n (s.accept w) = .next { a with cycles := latencyOf w - n }) ∧
    ∃ t, Sys2Proof.core.run (latencyOf w) (s.accept w) = .next t ∧ complete a = .next t ∧
      t.status.busy = false ∧ t.status.done = true) ∧
  (∀ (s : State) (w : Word),
    (∀ n, n < latencyOf w → ClockedFor n s → ∃ t, Sys2Proof.core.run n (s.accept w) = .next t ∧
      t = { s.accept w with
            status := { (s.accept w).status with ovr := t.status.ovr }
            cycles := latencyOf w - n
            inputs := s.inputs.drop n
            rdata := t.rdata
            rstPrev := t.rstPrev }) ∧
    (ClockedFor (latencyOf w) s → ∃ (t : State) (pins : Pins) (v : State),
      Sys2Proof.core.run (latencyOf w - 1) (s.accept w) = .next t ∧ t.nextInput = .cycle pins ∧
      complete (t.beginCycle pins) = .next v ∧ v.status.busy = false ∧ v.status.done = true ∧
      Sys2Proof.core.run (latencyOf w) (s.accept w) = .next (busEdge pins.bus v))) ∧
  ∀ (sched : Nat → AgentStep) (run : Nat → State), FairRun sched run →
    ∀ n, ∃ m, n ≤ m ∧ (run m).status.busy = false

/-- Timing does not depend on data: LAT is the opcode's, or one for all words that do not decode, and two
states that differ only in register values, operand values, result flags and error code stay alike in
BUSY, DONE, OVR and the cycle counter whatever the step (R280, R285). Over a return of power they stay
alike only because the model's free values depend on the count of power-ons alone (log 7). -/
def Obligations.TimingIndependentOfData : Prop :=
  (∀ (w w' : Word) (i i' : Instr), decode w = .ok i → decode w' = .ok i' → opField w = opField w' →
    latencyOf w = latencyOf w') ∧
  (∀ (w w' : Word) (c c' : CmdError), decode w = .error c → decode w' = .error c' →
    latencyOf w = latencyOf w') ∧
  ∀ s s' : State, SameTiming s s' →
    ∃ t t', step s = .next t ∧ step s' = .next t' ∧ SameTiming t t'

/-- A reset edge sets the R47 state from any state, abandons a running command and ignores the bus
(R270); one reset edge after power has come back does so whatever the free power-on values (R274; log 7). -/
def Obligations.ResetEdge : Prop :=
  (∀ (s : State) (bus : BusReq) (rest : List Input),
    s.inputs = .cycle { rstN := false, bus := bus } :: rest →
    ∃ t, step s = .next t ∧
      t = { State.reset with inputs := rest, rdata := t.rdata, powerUps := s.powerUps } ∧
      (∀ i : RegIx, t.f[i.val] = 0) ∧ t.ctrl.toWord = 0x00000002#32 ∧
      t.status.toWord = 0x00000000#32 ∧ t.lastCmd = 0) ∧
  ∀ (s : State) (bus : BusReq) (rest : List Input),
    s.inputs = .powerCycle :: .cycle { rstN := false, bus := bus } :: rest →
    ∃ u t, step s = .next u ∧ step u = .next t ∧
      t = { State.reset with inputs := rest, rdata := t.rdata, powerUps := s.powerUps + 1 }

/-- While reset is held, from its first edge on, every read gives 0, every write is ignored and irq
is 0 (R271; log 6 for the first edge). -/
def Obligations.HeldReset : Prop :=
  ∀ (s : State) (bus : BusReq) (rest : List Input), s.rstPrev = true →
    s.inputs = .cycle { rstN := false, bus := bus } :: rest →
    ∃ t, step s = .next t ∧ (∀ a, bus = .read a → t.rdata = some 0) ∧
      t = { State.reset with inputs := rest, rdata := t.rdata, powerUps := s.powerUps } ∧
      t.irq = false ∧ t.rstPrev = true

/-- irq is IRQ_EN and DONE: every completion raises it when enabled, and a W1C of DONE, an accepted
command, IRQ_EN = 0 and reset lower it; a dropped write leaves it (R240, R238). -/
def Obligations.InterruptLevel : Prop :=
  (∀ s t : State, complete s = .next t → t.irq = s.ctrl.irqEn) ∧
  (∀ (s : State) (v : Word), v.getLsbD 1 = true → (memWrite s 0x00C#12 v).irq = false) ∧
  (∀ (s : State) (w : Word), s.status.busy = false → (memWrite s 0x010#12 w).irq = false) ∧
  (∀ (s : State) (v : Word), s.status.busy = false → v.getLsbD 0 = false →
    (memWrite s 0x008#12 v).irq = false ∧ (memWrite s 0x008#12 v).status.done = s.status.done) ∧
  (∀ (s : State) (a : BusAddr) (v : Word), s.status.busy = true → windowReg a ≠ .status →
    (busWrite s a v).irq = s.irq) ∧
  State.reset.irq = false

/-- A stopped clock freezes the state: only the event is used up (R250, I-U13; log 8). -/
def Obligations.StoppedClockFreezes : Prop :=
  ∀ (s : State) (rest : List Input), s.inputs = .clockStopped :: rest →
    step s = .next { s with inputs := rest }

/-- The invariant holds after reset. -/
def Obligations.InvariantAtReset : Prop := Inv State.reset

/-- Every step keeps the invariant: the flag rules of R36, codes at most 4 (R232), the snapshot equal
to the visible state while busy (R119), the hidden state zero otherwise (R45), and ERRCODE one that the
last accepted command can have left (R36, R233). Working state zero at every edge is log 4, nothing said
before the first reset is log 7. -/
def Obligations.InvariantStep : Prop := ∀ s t : State, Inv s → step s = .next t → Inv t

/-- A host that keeps duties 1 to 3 never has a write dropped and always sees DONE when BUSY falls
(R281, R238). -/
def Obligations.HostInDuty : Prop :=
  ∀ s : State, inDuty s = true →
    ∃ t, step s = .next t ∧ (s.status.ovr = false → t.status.ovr = false) ∧
      (s.status.busy = true → t.status.busy = false → t.status.done = true)

/-- Every cycle of the unit is the run of the timeless model in which the host makes the transaction on the
pins, the engine completes exactly when the busy period ends at this edge, or reset alone steps (R289,
R241). A cycle of a busy unit in which the engine does not step lowers the cycle counter by one, so that
the timed unit is weakly fair. The read data of a cycle in reset is left out of the comparison (log 6), and
a counter at 0 ends the busy period too (log 13). -/
def Obligations.TimelessRefinement : Prop :=
  ∀ (s : State) (pins : Pins), s.nextInput = .cycle pins →
    ∃ t r : State, step s = .next t ∧ runAgents (cycleAgents s pins) (untimed s) = some r ∧
      (pins.rstN = true → untimed r = untimed t) ∧
      (pins.rstN = true → s.status.busy = true → AgentStep.engine ∉ cycleAgents s pins →
        t.status.busy = true ∧ t.cycles + 1 = s.cycles) ∧
      (pins.rstN = false → { untimed r with rdata := none } = { untimed t with rdata := none })

/-! ## Rules over all commands -/

/-- Each command completes and writes no field register outside R24's table. -/
def Obligations.DestinationTable : Prop :=
  ∀ (i : Instr) (s : State),
    ∃ t, exec i s = .next t ∧ CompletionFrame s t ∧ OthersKept s t (dests i)

/-- CARRY, NOROOT and ONCURVE keep their values across every command that does not write them, failed
ones among them, and no command reads a flag as an input: with other flags before it, a command leaves the
same registers, ERR, ERRCODE and result flag of its own (R37). -/
def Obligations.ResultFlagsSticky : Prop :=
  (∀ (i : Instr) (s t : State), exec i s = .next t →
    ((∀ rd ra rb, i ≠ .add rd ra rb) → t.status.carry = s.status.carry) ∧
    ((∀ rd ra, i ≠ .sqrt rd ra) → t.status.noroot = s.status.noroot) ∧
    ((∀ ra, i ≠ .edchk ra) → t.status.oncurve = s.status.oncurve)) ∧
  (∀ (s t : State) (c : CmdError), decode s.snap.cmd = .error c → complete s = .next t →
    t.status.carry = s.status.carry ∧ t.status.noroot = s.status.noroot ∧
      t.status.oncurve = s.status.oncurve) ∧
  ∀ (i : Instr) (s : State) (b c d : Bool),
    ∃ t u, exec i s = .next t ∧
      exec i { s with status := { s.status with carry := b, noroot := c, oncurve := d } } = .next u ∧
      t.f = u.f ∧ t.status.err = u.status.err ∧ t.status.errcode = u.status.errcode ∧
      ((∃ rd ra rb, i = .add rd ra rb) → t.status.carry = u.status.carry) ∧
      ((∃ rd ra, i = .sqrt rd ra) → t.status.noroot = u.status.noroot) ∧
      ((∃ ra, i = .edchk ra) → t.status.oncurve = u.status.oncurve)

/-- A command with an unaligned pair or quad base or a constant index above 12 fails with
BAD_OPERAND (R92, R233; log 9, since such a word fails at decode already). -/
def Obligations.BadOperandForms : Prop :=
  ∀ (rd ra rb : RegIx) (s : State),
    (12 < ra.val → Fails (.ldk rd ra) s 3) ∧
    (rd.val % 2 ≠ 0 ∨ ra.val % 2 ≠ 0 → Fails (.lstep rd ra rb) s 3) ∧
    (rd.val % 4 ≠ 0 ∨ ra.val % 4 ≠ 0 ∨ rb.val % 4 ≠ 0 → Fails (.edadd rd ra rb) s 3) ∧
    (rd.val % 4 ≠ 0 ∨ ra.val % 4 ≠ 0 → Fails (.eddbl rd ra) s 3) ∧
    (ra.val % 4 ≠ 0 → Fails (.edenc rd ra) s 3) ∧
    (rd.val % 4 ≠ 0 → Fails (.eddec rd ra) s 3)

/-- The algebraic laws of R151, with p = 2^255 − 19: the operations on all 256-bit values, and every
mod-p command on its operands and on their reductions. -/
def Obligations.FieldAlgebra : Prop :=
  fieldP = 2 ^ 255 - 19 ∧
  (∀ a b c : FVal, addP a b = addP b a ∧ mulP a b = mulP b a ∧
    addP (addP a b) c = addP a (addP b c) ∧ mulP (mulP a b) c = mulP a (mulP b c) ∧
    mulP a (addP b c) = addP (mulP a b) (mulP a c) ∧ subP a b = addP a (subP 0 b) ∧
    reduce (reduce a.toNat).toNat = reduce a.toNat) ∧
  ∀ (i : Instr) (s : State), residueCommand i = true → exec i (reducedSnap s) = exec i s

/-! ## The field arithmetic commands -/

/-- NOP (R120). -/
def Obligations.NopCommand : Prop :=
  WordRule 0x00 (fun w => w.toNat / 64 ≠ 0) noneBad (fun _ => .nop) ∧
  ∀ s : State, Completes .nop s [] (finished s.status) fun _ => True

/-- ADD (R122). -/
def Obligations.AddCommand : Prop :=
  WordRule 0x01 resUsed noneBad (fun w => .add (wRd w) (wRa w) (wRb w)) ∧
  ∀ (rd ra rb : RegIx) (s : State), Completes (.add rd ra rb) s [rd]
    { finished s.status with carry := decide (2 ^ 256 ≤ S s ra + S s rb) }
    fun t => D t rd = (S s ra + S s rb) % 2 ^ 256

/-- ADDM (R124). -/
def Obligations.AddmCommand : Prop :=
  WordRule 0x02 resUsed noneBad (fun w => .addm (wRd w) (wRa w) (wRb w)) ∧
  ∀ (rd ra rb : RegIx) (s : State), Completes (.addm rd ra rb) s [rd] (finished s.status)
    fun t => D t rd = (S s ra + S s rb) % P

/-- SUBM (R126). -/
def Obligations.SubmCommand : Prop :=
  WordRule 0x03 resUsed noneBad (fun w => .subm (wRd w) (wRa w) (wRb w)) ∧
  ∀ (rd ra rb : RegIx) (s : State), Completes (.subm rd ra rb) s [rd] (finished s.status)
    fun t => (D t rd : Int) = ((S s ra : Int) - (S s rb : Int)) % (P : Int)

/-- MULM: the ordinary product mod p (R128). -/
def Obligations.MulmCommand : Prop :=
  WordRule 0x04 resUsed noneBad (fun w => .mulm (wRd w) (wRa w) (wRb w)) ∧
  ∀ (rd ra rb : RegIx) (s : State), Completes (.mulm rd ra rb) s [rd] (finished s.status)
    fun t => D t rd = S s ra * S s rb % P

/-- SQRM, which writes what MULM of the value with itself writes (R130, R131). -/
def Obligations.SqrmCommand : Prop :=
  WordRule 0x05 rbResUsed noneBad (fun w => .sqrm (wRd w) (wRa w)) ∧
  ∀ (rd ra : RegIx) (s : State), exec (.sqrm rd ra) s = exec (.mulm rd ra ra) s ∧
    Completes (.sqrm rd ra) s [rd] (finished s.status) fun t => D t rd = S s ra ^ 2 % P

/-- INV (R133). -/
def Obligations.InvCommand : Prop :=
  WordRule 0x06 rbResUsed noneBad (fun w => .inv (wRd w) (wRa w)) ∧
  ∀ (rd ra : RegIx) (s : State), Completes (.inv rd ra) s [rd] (finished s.status)
    fun t => D t rd = (S s ra % P) ^ (P - 2) % P

/-- INV inverts every value that is not a multiple of p, and gives 0 for a multiple (R133, R237). -/
def Obligations.InvInverts : Prop :=
  ∀ (rd ra : RegIx) (s : State), ∃ t, exec (.inv rd ra) s = .next t ∧
    (S s ra % P ≠ 0 → S s ra * D t rd % P = 1) ∧ (S s ra % P = 0 → D t rd = 0)

/-- SQRT by the rule of R136. -/
def Obligations.SqrtCommand : Prop :=
  WordRule 0x07 rbResUsed noneBad (fun w => .sqrt (wRd w) (wRa w)) ∧
  ∀ (rd ra : RegIx) (s : State), Completes (.sqrt rd ra) s [rd]
    { finished s.status with noroot := (rootRef (SF s ra)).isNone }
    fun t => D t rd = ((rootRef (SF s ra)).getD 0).val

/-- SQRT is a square root: with NOROOT = 0 the result squares to the operand mod p, and NOROOT = 1
says that no number does (R136). -/
def Obligations.SqrtSoundComplete : Prop :=
  ∀ (rd ra : RegIx) (s : State), ∃ t, exec (.sqrt rd ra) s = .next t ∧
    (t.status.noroot = false → D t rd * D t rd % P = S s ra % P) ∧
    (t.status.noroot = true → D t rd = 0 ∧ ∀ r : Nat, r * r % P ≠ S s ra % P)

/-- RED (R140). -/
def Obligations.RedCommand : Prop :=
  WordRule 0x08 rbResUsed noneBad (fun w => .red (wRd w) (wRa w)) ∧
  ∀ (rd ra : RegIx) (s : State), Completes (.red rd ra) s [rd] (finished s.status)
    fun t => D t rd = S s ra % P

/-- MOV (R142). -/
def Obligations.MovCommand : Prop :=
  WordRule 0x09 rbResUsed noneBad (fun w => .mov (wRd w) (wRa w)) ∧
  ∀ (rd ra : RegIx) (s : State), Completes (.mov rd ra) s [rd] (finished s.status)
    fun t => D t rd = S s ra

/-- CSWAP, also in the mask form the unit computes (R144). -/
def Obligations.CswapCommand : Prop :=
  WordRule 0x0A resUsed noneBad (fun w => .cswap (wRd w) (wRa w) (wRb w)) ∧
  ∀ (rd ra rb : RegIx) (s : State), Completes (.cswap rd ra rb) s [rd, ra] (finished s.status)
    fun t =>
      (S s rb % 2 = 1 → D t rd = S s ra ∧ D t ra = S s rd) ∧
      (S s rb % 2 = 0 → D t rd = S s rd ∧ D t ra = S s ra) ∧
      let m := 0#256 - BitVec.ofNat 256 (S s rb % 2)
      let x := m &&& (s.snap.f[rd.val] ^^^ s.snap.f[ra.val])
      t.f[rd.val] = s.snap.f[rd.val] ^^^ x ∧ t.f[ra.val] = s.snap.f[ra.val] ^^^ x

/-- LDK, with the constant ROM written out (R147, R148). -/
def Obligations.LdkCommand : Prop :=
  WordRule 0x0B rbResUsed (fun w => 12 < (wRa w).val) (fun w => .ldk (wRd w) (wRa w)) ∧
  ∀ (rd k : RegIx) (s : State), k.val ≤ 12 → Completes (.ldk rd k) s [rd] (finished s.status)
    fun t => some (D t rd) = ([0, 1, 2 ^ 255 - 19,
      0x52036cee2b6ffe738cc740797779e89800700a4d4141d8ab75eb4dca135978a3,
      0x2406d9dc56dffce7198e80f2eef3d13000e0149a8283b156ebd69b9426b2f159,
      0x2b8324804fc1df0b2b4d00993dfbd7a72f431806ad2fe478c4ee1b274a0ea0b0, 121665, 9,
      0x216936d3cd6e53fec0a4e231fdd6dc5c692cc7609525a7b2c9562d608f25d51a,
      0x6666666666666666666666666666666666666666666666666666666666666658,
      0x67875f0fd78b766566ea4e8e64abe37d20f09f80775152f56dde8ab3a5b7dda3,
      0x1000000000000000000000000000000014def9dea2f79cd65812631a5cf5d3ed, 486662] : List Nat)[k.val]?

/-! ## The Montgomery ladder commands -/

/-- CLAMP: bits 2:0 and 255 clear, bit 254 set, the rest kept; the result lies in [2^254, 2^255 − 8] and is
a multiple of 8 (R170). -/
def Obligations.ClampCommand : Prop :=
  WordRule 0x10 rbResUsed noneBad (fun w => .clamp (wRd w) (wRa w)) ∧
  ∀ (rd ra : RegIx) (s : State), Completes (.clamp rd ra) s [rd] (finished s.status)
    fun t => D t rd = 2 ^ 254 + S s ra % 2 ^ 254 / 8 * 8 ∧
      2 ^ 254 ≤ D t rd ∧ D t rd ≤ 2 ^ 255 - 8 ∧ D t rd % 8 = 0

/-- LSTEP: pair A doubled, pair B summed, canonical; when both are one pair, the sum stands (R172,
R173). -/
def Obligations.LstepCommand : Prop :=
  WordRule 0x11 resUsed (fun w => (wRd w).val % 2 ≠ 0 ∨ (wRa w).val % 2 ≠ 0)
    (fun w => .lstep (wRd w) (wRa w) (wRb w)) ∧
  ∀ (rd ra rb : RegIx) (s : State), rd.val % 2 = 0 → ra.val % 2 = 0 →
    let o := lstepRef (SF s rd, SF s (rd + 1), SF s ra, SF s (ra + 1)) (SF s rb)
    Completes (.lstep rd ra rb) s [rd, rd + 1, ra, ra + 1] (finished s.status) fun t =>
      D t ra = o.2.2.1.val ∧ D t (ra + 1) = o.2.2.2.val ∧
      (rd ≠ ra → D t rd = o.1.val ∧ D t (rd + 1) = o.2.1.val)

/-- LADDER: the x-coordinate that the 255 iterations and the inversion give (R177). -/
def Obligations.LadderCommand : Prop :=
  WordRule 0x12 resUsed noneBad (fun w => .ladder (wRd w) (wRa w) (wRb w)) ∧
  ∀ (rd ra rb : RegIx) (s : State), Completes (.ladder rd ra rb) s [rd] (finished s.status)
    fun t =>
      let q := ladderRef (S s ra) (uOf s rb : F)
      D t rd = (q.1 * invF q.2.1).val

/-- Corner cases of LADDER: only bits 254:0 of k and the residue of u matter, k = 0 and u = 0 give 0,
and k = 1 gives u mod p (R177). -/
def Obligations.LadderCorners : Prop :=
  (∀ (rd ra rb : RegIx) (s s' : State), S s ra % 2 ^ 255 = S s' ra % 2 ^ 255 →
    uOf s rb % P = uOf s' rb % P →
    ∃ t t', exec (.ladder rd ra rb) s = .next t ∧ exec (.ladder rd ra rb) s' = .next t' ∧
      D t rd = D t' rd) ∧
  ∀ (rd ra rb : RegIx) (s : State), ∃ t, exec (.ladder rd ra rb) s = .next t ∧
    (S s ra % 2 ^ 255 = 0 → D t rd = 0) ∧ (uOf s rb % P = 0 → D t rd = 0) ∧
    (S s ra % 2 ^ 255 = 1 → D t rd = uOf s rb % P)

/-- The host form of R178: the sequence of CSWAP and LSTEP rounds, then INV and MULM, writes to f[d]
what LADDER writes to its destination. -/
def Obligations.LadderByHand : Prop :=
  ∀ (a b x sw i d rd ra rb : RegIx) (s l t : State),
    a.val % 2 = 0 → b.val % 2 = 0 → a ≠ b →
    x ∉ [a, a + 1, b, b + 1] → sw ∉ [a, a + 1, b, b + 1] → x ≠ sw → i ≠ a →
    D s a = 1 → D s (a + 1) = 0 → D s b = uOf l rb % P → D s (b + 1) = 1 → D s sw = 0 →
    D s x = uOf l rb % P →
    exec (.ladder rd ra rb) l = .next t →
    (handLadder a b x sw i d (S l ra) s).f[d.val] = t.f[rd.val]

/-! ## The Edwards commands -/

/-- EDADD on any two quads (R190, R197). -/
def Obligations.EdaddCommand : Prop :=
  WordRule 0x20 resUsed
    (fun w => (wRd w).val % 4 ≠ 0 ∨ (wRa w).val % 4 ≠ 0 ∨ (wRb w).val % 4 ≠ 0)
    (fun w => .edadd (wRd w) (wRa w) (wRb w)) ∧
  ∀ (rd ra rb : RegIx) (s : State), rd.val % 4 = 0 → ra.val % 4 = 0 → rb.val % 4 = 0 →
    Completes (.edadd rd ra rb) s (quadRegs rd) (finished s.status)
      fun t => QuadIs t rd (edAddRef (quadF s ra) (quadF s rb))

/-- EDDBL on any quad; T is not read (R194, R197). -/
def Obligations.EddblCommand : Prop :=
  WordRule 0x21 rbResUsed (fun w => (wRd w).val % 4 ≠ 0 ∨ (wRa w).val % 4 ≠ 0)
    (fun w => .eddbl (wRd w) (wRa w)) ∧
  ∀ (rd ra : RegIx) (s : State), rd.val % 4 = 0 → ra.val % 4 = 0 →
    Completes (.eddbl rd ra) s (quadRegs rd) (finished s.status)
      fun t => QuadIs t rd (edDblRef (quadF s ra))

/-- What EDADD and EDDBL do to points: both write a point again, with Z not 0 and on the curve, whatever
the two points (the formula is complete); adding a point to itself is doubling it, adding the identity
leaves the point, and adding the negated point gives a quad (0, Y, Y, 0) (R189, R190, R194). -/
def Obligations.EdwardsPointLaws : Prop :=
  ∀ (rd ra rb : RegIx) (s : State), rd.val % 4 = 0 → ra.val % 4 = 0 → rb.val % 4 = 0 →
    ExtendedPoint (quadF s ra) → ExtendedPoint (quadF s rb) →
    ∃ t u : State, ∃ q r : F4,
      exec (.edadd rd ra rb) s = .next t ∧ QuadIs t rd q ∧ q.2.2.1 ≠ 0 ∧ ExtendedPoint q ∧
      exec (.eddbl rd ra) s = .next u ∧ QuadIs u rd r ∧ r.2.2.1 ≠ 0 ∧ ExtendedPoint r ∧
      (quadF s rb = quadF s ra → SamePoint q r) ∧
      (quadF s rb = (0, 1, 1, 0) → SamePoint q (quadF s ra)) ∧
      (quadF s rb = (-(quadF s ra).1, (quadF s ra).2.1, (quadF s ra).2.2.1, -(quadF s ra).2.2.2) →
        q.1 = 0 ∧ q.2.2.2 = 0 ∧ q.2.1 = q.2.2.1)

/-! ## Point encoding and decoding -/

/-- EDENC on any quad, with Z ≡ 0 giving 0 (R209, R210). -/
def Obligations.EdencCommand : Prop :=
  WordRule 0x30 rbResUsed (fun w => (wRa w).val % 4 ≠ 0) (fun w => .edenc (wRd w) (wRa w)) ∧
  ∀ (rd ra : RegIx) (s : State), ra.val % 4 = 0 →
    Completes (.edenc rd ra) s [rd] (finished s.status) fun t =>
      let zi := invF (SF s (ra + 2))
      D t rd = (SF s (ra + 1) * zi).val + 2 ^ 255 * ((SF s ra * zi).val % 2)

/-- EDDEC by the procedure of R212: the point, or NOT_ON_CURVE with nothing written (R212, R213). -/
def Obligations.EddecCommand : Prop :=
  WordRule 0x31 rbResUsed (fun w => (wRd w).val % 4 ≠ 0) (fun w => .eddec (wRd w) (wRa w)) ∧
  ∀ (rd ra : RegIx) (s : State), rd.val % 4 = 0 →
    (∀ q, decRef (S s ra) = some q →
      Completes (.eddec rd ra) s (quadRegs rd) (finished s.status) fun t => QuadIs t rd q) ∧
    (decRef (S s ra) = none → Fails (.eddec rd ra) s 4)

/-- EDDEC accepts exactly the canonical encodings of points of the curve, and writes the point (R16,
R209, R212, R213). -/
def Obligations.EddecExactlyPoints : Prop :=
  ∀ (rd ra : RegIx) (s : State), rd.val % 4 = 0 →
    (∀ x y : F, EncodesPoint (S s ra) x y →
      Completes (.eddec rd ra) s (quadRegs rd) (finished s.status)
        fun t => QuadIs t rd (x, y, 1, x * y)) ∧
    ((¬∃ x y : F, EncodesPoint (S s ra) x y) → Fails (.eddec rd ra) s 4)

/-- EDENC after a successful EDDEC returns the decoded value exactly (R213). -/
def Obligations.EncodeAfterDecode : Prop :=
  ∀ (rd ra re : RegIx) (s t u : State), rd.val % 4 = 0 → s.status.err = false →
    exec (.eddec rd ra) s = .next t → t.status.err = false →
    (∀ j ∈ quadRegs rd, u.snap.f[j.val] = t.f[j.val]) →
    Completes (.edenc re rd) u [re] (finished u.status) fun v => v.f[re.val] = s.snap.f[ra.val]

/-- EDCHK: ONCURVE says whether DEC accepts, which is when EDDEC of the same value would succeed; an
invalid encoding is no error (R217). -/
def Obligations.EdchkCommand : Prop :=
  WordRule 0x32 (fun w => wRd w ≠ 0 ∨ wRb w ≠ 0 ∨ wRes w ≠ 0) noneBad (fun w => .edchk (wRa w)) ∧
  ∀ (ra : RegIx) (s : State), Completes (.edchk ra) s []
    { finished s.status with oncurve := (decRef (S s ra)).isSome }
    fun t => ∀ rd : RegIx, rd.val % 4 = 0 → s.status.err = false →
      (t.status.oncurve = false ↔ Fails (.eddec rd ra) s 4)
end

