-- ==== Sys2Proof/Laws/Arith.lean ====
section
/-! SUPPORT. What each field operation computes: its value as a number, that it is canonical (R121),
and its image in the ring of residues mod p. -/

namespace Sys2Proof.Machine

theorem fieldP_eq : fieldP = 2 ^ 255 - 19 := by norm_num [fieldP]

theorem fieldP_pos : 0 < fieldP := by norm_num [fieldP]

theorem fieldP_lt : fieldP < 2 ^ 255 := by norm_num [fieldP]

theorem fieldP_odd : fieldP % 2 = 1 := by norm_num [fieldP]

/-! ### Values -/

/-- A canonical value is below p (R11). -/
def Canonical (a : FVal) : Prop := a.toNat < fieldP

/-- The residue of a register value mod p, in the ring of residues. -/
def residue (a : FVal) : ZMod fieldP := (a.toNat : ZMod fieldP)

theorem toNat_ofNat_of_lt {n : Nat} (h : n < fieldP) : (BitVec.ofNat 256 n).toNat = n := by
  have := fieldP_lt
  rw [BitVec.toNat_ofNat, Nat.mod_eq_of_lt (by omega)]

@[simp] theorem toNat_reduce (n : Nat) : (reduce n).toNat = n % fieldP :=
  toNat_ofNat_of_lt (Nat.mod_lt _ fieldP_pos)

@[simp] theorem toNat_addP (a b : FVal) : (addP a b).toNat = (a.toNat + b.toNat) % fieldP :=
  toNat_reduce _

@[simp] theorem toNat_mulP (a b : FVal) : (mulP a b).toNat = a.toNat * b.toNat % fieldP :=
  toNat_reduce _

/-- SUBM's value is the mathematical difference mod p (R126). -/
theorem toNat_subP (a b : FVal) :
    ((subP a b).toNat : Int) = ((a.toNat : Int) - (b.toNat : Int)) % (fieldP : Int) := by
  have hp : (0 : Int) < (fieldP : Int) := by exact_mod_cast fieldP_pos
  have h0 := Int.emod_nonneg ((a.toNat : Int) - (b.toNat : Int)) hp.ne'
  have h1 := Int.emod_lt_of_pos ((a.toNat : Int) - (b.toNat : Int)) hp
  rw [subP, toNat_ofNat_of_lt (by omega), Int.toNat_of_nonneg h0]

/-! ### Powers -/

/-- Square and multiply over `n` bits computes the power when the exponent fits in them. -/
theorem powLoop_eq (n : Nat) : ∀ b e, e < 2 ^ n → powLoop b e n % fieldP = b ^ e % fieldP := by
  induction n with
  | zero => intro b e h; simp [powLoop, show e = 0 by omega]
  | succ n ih =>
    intro b e h
    have half : powLoop (b * b % fieldP) (e / 2) n % fieldP = (b * b) ^ (e / 2) % fieldP := by
      rw [ih _ _ (by rw [pow_succ] at h; omega), ← Nat.pow_mod]
    have key : (b * b) ^ (e / 2) = b ^ (2 * (e / 2)) := by rw [← pow_two, ← pow_mul]
    rw [powLoop]
    split
    · next odd =>
      have he : e = 2 * (e / 2) + 1 := by omega
      rw [Nat.mod_mod, Nat.mul_mod, half, ← Nat.mul_mod, key, mul_comm, ← pow_succ, ← he]
    · next even =>
      have he : e = 2 * (e / 2) := by omega
      rw [half, key, ← he]

/-- a^e mod p (R133, R136). -/
theorem toNat_powP (a : FVal) {e : Nat} (h : e < 2 ^ 256) :
    (powP a e).toNat = (a.toNat % fieldP) ^ e % fieldP := by
  rw [powP, toNat_reduce, powLoop_eq _ _ _ h]

/-- inv_p(a) = (a mod p)^(p−2) mod p (R11). -/
theorem toNat_invP (a : FVal) :
    (invP a).toNat = (a.toNat % fieldP) ^ (fieldP - 2) % fieldP :=
  toNat_powP a (by norm_num [fieldP])

/-! ### Canonical results (R121) -/

theorem canonical_reduce (n : Nat) : Canonical (reduce n) := by
  simpa [Canonical] using Nat.mod_lt n fieldP_pos

theorem canonical_addP (a b : FVal) : Canonical (addP a b) := canonical_reduce _

theorem canonical_mulP (a b : FVal) : Canonical (mulP a b) := canonical_reduce _

theorem canonical_powP (a : FVal) (e : Nat) : Canonical (powP a e) := canonical_reduce _

theorem canonical_invP (a : FVal) : Canonical (invP a) := canonical_reduce _

theorem canonical_subP (a b : FVal) : Canonical (subP a b) := by
  have hp : (0 : Int) < (fieldP : Int) := by exact_mod_cast fieldP_pos
  have h1 := Int.emod_lt_of_pos ((a.toNat : Int) - (b.toNat : Int)) hp
  have h := toNat_subP a b
  unfold Canonical
  omega

/-! ### Residues -/

/-- A canonical value is the least representative of its residue. -/
theorem Canonical.toNat_eq_val {a : FVal} (h : Canonical a) : a.toNat = (residue a).val := by
  rw [residue, ZMod.val_natCast, Nat.mod_eq_of_lt h]

@[simp] theorem residue_reduce (n : Nat) : residue (reduce n) = (n : ZMod fieldP) := by
  simp [residue]

@[simp] theorem residue_addP (a b : FVal) : residue (addP a b) = residue a + residue b := by
  simp [residue]

@[simp] theorem residue_mulP (a b : FVal) : residue (mulP a b) = residue a * residue b := by
  simp [residue]

@[simp] theorem residue_subP (a b : FVal) : residue (subP a b) = residue a - residue b := by
  have h := congrArg (fun z : Int => (z : ZMod fieldP)) (toNat_subP a b)
  have hmod : (((a.toNat : Int) - (b.toNat : Int)) % (fieldP : Int) : Int) =
      (((a.toNat : Int) - (b.toNat : Int) : Int) : ZMod fieldP) := ZMod.intCast_mod _ _
  simpa [residue] using h.trans hmod

theorem residue_powP (a : FVal) {e : Nat} (h : e < 2 ^ 256) :
    residue (powP a e) = residue a ^ e := by
  simp [residue, toNat_powP a h]

theorem residue_invP (a : FVal) : residue (invP a) = residue a ^ (fieldP - 2) :=
  residue_powP a (by norm_num [fieldP])

/-- Two canonical values with one residue are equal. -/
theorem eq_of_residue_eq {a b : FVal} (ha : Canonical a) (hb : Canonical b)
    (h : residue a = residue b) : a = b := by
  apply BitVec.eq_of_toNat_eq
  have := (ZMod.natCast_eq_natCast_iff _ _ _).1 h
  rwa [Nat.ModEq, Nat.mod_eq_of_lt ha, Nat.mod_eq_of_lt hb] at this

/-- A value with residue 0 is a multiple of p. -/
theorem residue_eq_zero {a : FVal} : residue a = 0 ↔ a.toNat % fieldP = 0 := by
  rw [residue, ZMod.natCast_eq_zero_iff, Nat.dvd_iff_mod_eq_zero]

end Sys2Proof.Machine
end

