-- ==== Sys2Proof/Laws/Prime.lean ====
section
/-! SUPPORT. p = 2^255 − 19 is prime, by Lucas certificates for it and for the large prime factors
its certificate needs, and what follows for inverses. -/

namespace Sys2Proof.Machine.Lucas

/-- b^e mod m by square and multiply over `n` bits of the exponent. -/
def powMod (m b e : Nat) : Nat → Nat
  | 0 => 1 % m
  | n + 1 =>
    if e % 2 = 1 then b * powMod m (b * b % m) (e / 2) n % m
    else powMod m (b * b % m) (e / 2) n

theorem powMod_eq (m n : Nat) : ∀ b e, e < 2 ^ n → powMod m b e n = b ^ e % m := by
  induction n with
  | zero => intro b e h; simp [powMod, show e = 0 by omega]
  | succ n ih =>
    intro b e h
    have half : powMod m (b * b % m) (e / 2) n = (b * b) ^ (e / 2) % m := by
      rw [ih _ _ (by rw [pow_succ] at h; omega), ← Nat.pow_mod]
    have key : (b * b) ^ (e / 2) = b ^ (2 * (e / 2)) := by rw [← pow_two, ← pow_mul]
    rw [powMod, half, key]
    split
    · next odd =>
      have he : e = 2 * (e / 2) + 1 := by omega
      rw [Nat.mul_mod_mod, mul_comm, ← pow_succ, ← he]
    · next even =>
      have he : e = 2 * (e / 2) := by omega
      rw [← he]

/-- Whether `a` and the factors `fs` of n − 1 certify that n is prime, but for the primality of the
factors. -/
def certifies (n a : Nat) (fs : List Nat) : Bool :=
  fs.prod == n - 1 && powMod n a (n - 1) 256 == 1 &&
    fs.all fun q => powMod n a ((n - 1) / q) 256 != 1

/-- Lucas's test, with the powers computed by square and multiply. -/
theorem prime_of_certifies {n a : Nat} {fs : List Nat} (hn : 1 < n) (hb : n < 2 ^ 256)
    (h : certifies n a fs = true) (hfs : ∀ q ∈ fs, q.Prime) : n.Prime := by
  simp only [certifies, Bool.and_eq_true, beq_iff_eq, List.all_eq_true, bne_iff_ne] at h
  obtain ⟨⟨hprod, hpow⟩, hall⟩ := h
  have cast_pow (e : Nat) (he : e < 2 ^ 256) : ((powMod n a e 256 : Nat) : ZMod n) = (a : ZMod n) ^ e := by
    rw [powMod_eq n 256 a e he, ZMod.natCast_mod, Nat.cast_pow]
  refine lucas_primality n (a : ZMod n) ?_ ?_
  · rw [← cast_pow _ (by omega), hpow, Nat.cast_one]
  · intro q hq hdvd
    rw [← hprod] at hdvd
    obtain ⟨r, hr, hqr⟩ := (Prime.dvd_prod_iff hq.prime).1 hdvd
    obtain rfl := (Nat.prime_dvd_prime_iff_eq hq (hfs r hr)).1 hqr
    have hle : (n - 1) / q < 2 ^ 256 := lt_of_le_of_lt (Nat.div_le_self _ _) (by omega)
    rw [← cast_pow _ hle]
    intro h1
    apply hall q hr
    have hlt : powMod n a ((n - 1) / q) 256 < n := by
      rw [powMod_eq n 256 a _ hle]; exact Nat.mod_lt _ (by omega)
    have := (ZMod.natCast_eq_natCast_iff _ 1 n).1 (by simpa using h1)
    rwa [Nat.ModEq, Nat.mod_eq_of_lt hlt, Nat.mod_eq_of_lt hn] at this

theorem prime_2773320623 : Nat.Prime 2773320623 :=
  prime_of_certifies (a := 5) (fs := [2, 2437, 569003]) (by norm_num) (by norm_num)
    (by decide +kernel) (by norm_num)

theorem prime_72106336199 : Nat.Prime 72106336199 :=
  prime_of_certifies (a := 7) (fs := [2, 13, 2773320623]) (by norm_num) (by norm_num)
    (by decide +kernel) (by simp [prime_2773320623, Nat.prime_two]; norm_num)

theorem prime_1919519569386763 : Nat.Prime 1919519569386763 :=
  prime_of_certifies (a := 2) (fs := [2, 3, 7, 19, 47, 47, 127, 8574133]) (by norm_num)
    (by norm_num) (by decide +kernel) (by norm_num)

theorem prime_31757755568855353 : Nat.Prime 31757755568855353 :=
  prime_of_certifies (a := 10) (fs := [2, 2, 2, 3, 31, 107, 223, 4153, 430751]) (by norm_num)
    (by norm_num) (by decide +kernel) (by norm_num)

theorem prime_75445702479781427272750846543864801 :
    Nat.Prime 75445702479781427272750846543864801 :=
  prime_of_certifies (a := 7)
    (fs := [2, 2, 2, 2, 2, 3, 3, 5, 5, 75707, 72106336199, 1919519569386763])
    (by norm_num) (by norm_num) (by decide +kernel)
    (by
      simp only [List.forall_mem_cons, List.not_mem_nil, false_implies, implies_true, and_true,
        prime_72106336199, prime_1919519569386763]
      norm_num)

/-- The large prime factor of p − 1. -/
theorem prime_factor :
    Nat.Prime 74058212732561358302231226437062788676166966415465897661863160754340907 :=
  prime_of_certifies (a := 2)
    (fs := [2, 3, 353, 57467, 132049, 1923133, 31757755568855353,
      75445702479781427272750846543864801])
    (by norm_num) (by norm_num) (by decide +kernel)
    (by
      simp only [List.forall_mem_cons, List.not_mem_nil, false_implies, implies_true, and_true,
        prime_31757755568855353, prime_75445702479781427272750846543864801]
      norm_num)

end Sys2Proof.Machine.Lucas

namespace Sys2Proof.Machine

open Lucas

/-- p = 2^255 − 19 is prime. -/
theorem fieldP_prime : Nat.Prime fieldP :=
  prime_of_certifies (a := 2)
    (fs := [2, 2, 3, 65147, 74058212732561358302231226437062788676166966415465897661863160754340907])
    (by norm_num [fieldP]) (by norm_num [fieldP]) (by decide +kernel)
    (by
      simp only [List.forall_mem_cons, List.not_mem_nil, false_implies, implies_true, and_true,
        prime_factor]
      norm_num)

/-- inv_p inverts every value that is not a multiple of p (R133). -/
theorem residue_mul_invP {a : FVal} (h : residue a ≠ 0) : residue a * residue (invP a) = 1 := by
  have : Fact fieldP.Prime := ⟨fieldP_prime⟩
  rw [residue_invP, ← pow_succ',
    show fieldP - 2 + 1 = fieldP - 1 by norm_num [fieldP]]
  exact ZMod.pow_card_sub_one_eq_one h

end Sys2Proof.Machine
end

