-- ==== Sys2Proof/Laws/Curve.lean ====
section
/-! SUPPORT. The Edwards curve of 00_scope R16 over a field in which −1 is a square and d is none: the
addition formula is complete and closed on it (42_edwards R190), and so is doubling (R194). The
constants of R15 meet both conditions. -/

namespace Sys2Proof.Machine

section Curve

variable {K : Type} [Field K] {d i : K}

/-- Completeness on affine points: d·x1·x2·y1·y2 is neither 1 nor −1. -/
theorem edwards_complete (h2 : (2 : K) ≠ 0) (hi : i ^ 2 = -1) (hd : ∀ r : K, r ^ 2 ≠ d)
    {x1 y1 x2 y2 ε : K} (c1 : y1 ^ 2 - x1 ^ 2 = 1 + d * x1 ^ 2 * y1 ^ 2)
    (c2 : y2 ^ 2 - x2 ^ 2 = 1 + d * x2 ^ 2 * y2 ^ 2) (he : ε ^ 2 = 1) :
    d * x1 * x2 * y1 * y2 ≠ ε := by
  intro h
  have hε : ε ≠ 0 := by rintro rfl; simp at he
  have hxy : x1 * y1 ≠ 0 := fun h0 => hε (by rw [← h]; linear_combination d * x2 * y2 * h0)
  have square (σ : K) (hσ : σ ^ 2 = 1) :
      (i * x1 + σ * ε * y1) ^ 2 = d * (x1 * y1 * (i * x2 + σ * y2)) ^ 2 := by grind
  have zero (σ : K) (hσ : σ ^ 2 = 1) : i * x2 + σ * y2 = 0 := by
    by_contra hne
    refine hd ((i * x1 + σ * ε * y1) / (x1 * y1 * (i * x2 + σ * y2))) ?_
    rw [div_pow, square σ hσ, mul_div_assoc, div_self (pow_ne_zero 2 (mul_ne_zero hxy hne)), mul_one]
  have hy : 2 * y2 = 0 := by linear_combination zero 1 (by ring) - zero (-1) (by ring)
  have hy2 : y2 = 0 := (mul_eq_zero.1 hy).resolve_left h2
  exact hε (by rw [← h, hy2, mul_zero])

/-- Closure on affine points, with the denominators of the addition law multiplied in. -/
theorem edwards_closed {x1 y1 x2 y2 : K} (c1 : y1 ^ 2 - x1 ^ 2 = 1 + d * x1 ^ 2 * y1 ^ 2)
    (c2 : y2 ^ 2 - x2 ^ 2 = 1 + d * x2 ^ 2 * y2 ^ 2) :
    ((1 + d * x1 * x2 * y1 * y2) * (y1 * y2 + x1 * x2)) ^ 2
        - ((x1 * y2 + y1 * x2) * (1 - d * x1 * x2 * y1 * y2)) ^ 2 =
      ((1 - d * x1 * x2 * y1 * y2) * (1 + d * x1 * x2 * y1 * y2)) ^ 2
        + d * ((x1 * y2 + y1 * x2) * (y1 * y2 + x1 * x2)) ^ 2 := by
  grind

/-- An extended point in affine form (R189). -/
theorem affine_of_extended {X Y Z T : K} (hz : Z ≠ 0) (ht : T * Z = X * Y)
    (hc : Y ^ 2 - X ^ 2 = Z ^ 2 + d * T ^ 2) :
    ∃ x y : K, X = x * Z ∧ Y = y * Z ∧ T = x * y * Z ∧ y ^ 2 - x ^ 2 = 1 + d * x ^ 2 * y ^ 2 := by
  have hT : T = X / Z * (Y / Z) * Z := by field_simp; exact ht
  refine ⟨X / Z, Y / Z, (div_mul_cancel₀ X hz).symm, (div_mul_cancel₀ Y hz).symm, hT, ?_⟩
  apply mul_right_cancel₀ (pow_ne_zero 2 hz)
  calc ((Y / Z) ^ 2 - (X / Z) ^ 2) * Z ^ 2 = Y ^ 2 - X ^ 2 := by field_simp
    _ = Z ^ 2 + d * T ^ 2 := hc
    _ = (1 + d * (X / Z) ^ 2 * (Y / Z) ^ 2) * Z ^ 2 := by
      conv_lhs => rw [hT]
      ring

/-- EDADD's formula on two extended points gives an extended point (R189, R190). -/
theorem edAdd_extended (h2 : (2 : K) ≠ 0) (hi : i ^ 2 = -1) (hd : ∀ r : K, r ^ 2 ≠ d)
    {X1 Y1 Z1 T1 X2 Y2 Z2 T2 e f g h : K} (hz1 : Z1 ≠ 0) (ht1 : T1 * Z1 = X1 * Y1)
    (hc1 : Y1 ^ 2 - X1 ^ 2 = Z1 ^ 2 + d * T1 ^ 2) (hz2 : Z2 ≠ 0) (ht2 : T2 * Z2 = X2 * Y2)
    (hc2 : Y2 ^ 2 - X2 ^ 2 = Z2 ^ 2 + d * T2 ^ 2)
    (he : e = (Y1 + X1) * (Y2 + X2) - (Y1 - X1) * (Y2 - X2))
    (hf : f = 2 * Z1 * Z2 - T1 * (2 * d) * T2) (hg : g = 2 * Z1 * Z2 + T1 * (2 * d) * T2)
    (hh : h = (Y1 + X1) * (Y2 + X2) + (Y1 - X1) * (Y2 - X2)) :
    f * g ≠ 0 ∧ e * h * (f * g) = e * f * (g * h) ∧
      (g * h) ^ 2 - (e * f) ^ 2 = (f * g) ^ 2 + d * (e * h) ^ 2 := by
  obtain ⟨x1, y1, rfl, rfl, rfl, c1⟩ := affine_of_extended hz1 ht1 hc1
  obtain ⟨x2, y2, rfl, rfl, rfl, c2⟩ := affine_of_extended hz2 ht2 hc2
  have hk : 2 * Z1 * Z2 ≠ 0 := mul_ne_zero (mul_ne_zero h2 hz1) hz2
  have e' : e = 2 * Z1 * Z2 * (x1 * y2 + y1 * x2) := by rw [he]; ring
  have f' : f = 2 * Z1 * Z2 * (1 - d * x1 * x2 * y1 * y2) := by rw [hf]; ring
  have g' : g = 2 * Z1 * Z2 * (1 + d * x1 * x2 * y1 * y2) := by rw [hg]; ring
  have h' : h = 2 * Z1 * Z2 * (y1 * y2 + x1 * x2) := by rw [hh]; ring
  refine ⟨?_, by ring, ?_⟩
  · rw [f', g']
    refine mul_ne_zero (mul_ne_zero hk fun h0 => ?_) (mul_ne_zero hk fun h0 => ?_)
    · exact edwards_complete h2 hi hd c1 c2 (one_pow 2) (sub_eq_zero.1 h0).symm
    · exact edwards_complete h2 hi hd c1 c2 (ε := -1) (by ring) (by linear_combination h0)
  · rw [e', f', g', h']
    linear_combination (2 * Z1 * Z2) ^ 4 * edwards_closed c1 c2

/-- EDDBL's formula on an extended point gives an extended point (R189, R194). -/
theorem edDbl_extended (h2 : (2 : K) ≠ 0) (hi : i ^ 2 = -1) (hd : ∀ r : K, r ^ 2 ≠ d)
    {X Y Z T e f g h : K} (hz : Z ≠ 0) (ht : T * Z = X * Y)
    (hc : Y ^ 2 - X ^ 2 = Z ^ 2 + d * T ^ 2) (hh : h = X ^ 2 + Y ^ 2) (he : e = h - (X + Y) ^ 2)
    (hg : g = X ^ 2 - Y ^ 2) (hf : f = 2 * Z ^ 2 + g) :
    f * g ≠ 0 ∧ e * h * (f * g) = e * f * (g * h) ∧
      (g * h) ^ 2 - (e * f) ^ 2 = (f * g) ^ 2 + d * (e * h) ^ 2 := by
  have add := edAdd_extended h2 hi hd hz ht hc hz ht hc rfl rfl rfl rfl
  have h4 : (4 : K) ≠ 0 := by
    have : (4 : K) = 2 * 2 := by norm_num
    rw [this]
    exact mul_ne_zero h2 h2
  have e' : (Y + X) * (Y + X) - (Y - X) * (Y - X) = -2 * e := by rw [he, hh]; ring
  have f' : 2 * Z * Z - T * (2 * d) * T = 2 * f := by rw [hf, hg]; linear_combination 2 * hc
  have g' : 2 * Z * Z + T * (2 * d) * T = -2 * g := by rw [hg]; linear_combination -2 * hc
  have h' : (Y + X) * (Y + X) + (Y - X) * (Y - X) = 2 * h := by rw [hh]; ring
  rw [e', f', g', h'] at add
  refine ⟨fun h0 => add.1 (by linear_combination -4 * h0), by ring, ?_⟩
  exact mul_left_cancel₀ (mul_ne_zero h4 h4) (by linear_combination add.2.2)

end Curve

/-! ### The constants of R15 -/

/-- 2 is not 0 mod p. -/
theorem residue_two_ne_zero : (2 : ZMod fieldP) ≠ 0 := by decide +kernel

/-- SQRTM1 is a square root of −1 (R15). -/
theorem constSqrtM1_sq : residue constSqrtM1 ^ 2 = -1 := by decide +kernel

/-- d is not a square mod p, by Euler's criterion (R15, R190). -/
theorem constD_not_square (r : ZMod fieldP) : r ^ 2 ≠ residue constD := by
  have hd : residue constD ≠ 0 := by decide +kernel
  have hne : (-1 : ZMod fieldP) ≠ 1 := by decide +kernel
  have : Fact fieldP.Prime := ⟨fieldP_prime⟩
  intro h
  have euler : residue constD ^ (fieldP / 2) = -1 := by
    have hp : fieldP / 2 < 2 ^ 256 := by norm_num [fieldP]
    have value : (powP constD (fieldP / 2)).toNat = fieldP - 1 := by decide +kernel
    rw [← residue_powP constD hp, residue, value, Nat.cast_sub fieldP_pos, Nat.cast_one]
    simp
  have hr : r ≠ 0 := by
    rintro rfl
    exact hd (by rw [← h]; simp)
  have one : residue constD ^ (fieldP / 2) = 1 := by
    rw [← h, ← pow_mul, show 2 * (fieldP / 2) = fieldP - 1 by norm_num [fieldP]]
    exact ZMod.pow_card_sub_one_eq_one hr
  exact hne (euler.symm.trans one)

end Sys2Proof.Machine
end

