-- ==== Sys2Proof/Laws/Decode.lean ====
section
/-! SUPPORT. The fields of an encoded word (30_encoding R91) and what each outcome of decode says. -/

namespace Sys2Proof

/-! ### A word is its fields -/

/-- R91's encode as a sum of shifted fields. -/
theorem encodeFields_toNat (op : BitVec 6) (rd ra rb : RegIx) :
    (encodeFields op rd ra rb).toNat = op.toNat + 64 * rd.val + 2048 * ra.val + 65536 * rb.val := by
  have hop := op.isLt
  have hd := rd.isLt
  have ha := ra.isLt
  have hb := rb.isLt
  simp only [encodeFields, BitVec.toNat_or, BitVec.toNat_shiftLeft, BitVec.toNat_ofNat,
    BitVec.toNat_setWidth, Nat.shiftLeft_eq]
  rw [Nat.mod_eq_of_lt (a := rb.val) (by omega), Nat.mod_eq_of_lt (a := ra.val) (by omega),
    Nat.mod_eq_of_lt (a := rd.val) (by omega), Nat.mod_eq_of_lt (a := op.toNat) (by omega),
    Nat.mod_eq_of_lt (by omega), Nat.mod_eq_of_lt (by omega), Nat.mod_eq_of_lt (by omega)]
  have h1 := Nat.two_pow_add_eq_or_of_lt (i := 6) (b := op.toNat) (by omega) rd.val
  have h2 := Nat.two_pow_add_eq_or_of_lt (i := 11) (b := 2 ^ 6 * rd.val + op.toNat) (by omega) ra.val
  have h3 := Nat.two_pow_add_eq_or_of_lt (i := 16)
    (b := 2 ^ 11 * ra.val + (2 ^ 6 * rd.val + op.toNat)) (by omega) rb.val
  rw [Nat.mul_comm rd.val, Nat.mul_comm ra.val, Nat.mul_comm rb.val, Nat.or_assoc, Nat.or_assoc,
    ← h1, ← h2, ← h3]
  omega

/-- A word is the sum of its shifted fields. -/
theorem fields_toNat (w : Word) :
    w.toNat = (opField w).toNat + 64 * (rdField w).val + 2048 * (raField w).val
      + 65536 * (rbField w).val + 2097152 * (resField w).toNat := by
  have := w.isLt
  simp only [opField, rdField, raField, rbField, resField, BitVec.extractLsb'_toNat,
    Nat.shiftRight_eq_div_pow]
  omega

theorem opField_encodeFields (op : BitVec 6) (rd ra rb : RegIx) :
    opField (encodeFields op rd ra rb) = op := by
  apply BitVec.eq_of_toNat_eq
  have hop := op.isLt
  simp only [opField, BitVec.extractLsb'_toNat, Nat.shiftRight_eq_div_pow, encodeFields_toNat]
  omega

theorem rdField_encodeFields (op : BitVec 6) (rd ra rb : RegIx) :
    rdField (encodeFields op rd ra rb) = rd := by
  have hop := op.isLt
  have hd := rd.isLt
  simp only [rdField, BitVec.extractLsb'_toNat, Nat.shiftRight_eq_div_pow, encodeFields_toNat,
    Fin.ext_iff]
  omega

theorem raField_encodeFields (op : BitVec 6) (rd ra rb : RegIx) :
    raField (encodeFields op rd ra rb) = ra := by
  have hop := op.isLt
  have hd := rd.isLt
  have ha := ra.isLt
  simp only [raField, BitVec.extractLsb'_toNat, Nat.shiftRight_eq_div_pow, encodeFields_toNat,
    Fin.ext_iff]
  omega

theorem rbField_encodeFields (op : BitVec 6) (rd ra rb : RegIx) :
    rbField (encodeFields op rd ra rb) = rb := by
  have hop := op.isLt
  have hd := rd.isLt
  have ha := ra.isLt
  have hb := rb.isLt
  simp only [rbField, BitVec.extractLsb'_toNat, Nat.shiftRight_eq_div_pow, encodeFields_toNat,
    Fin.ext_iff]
  omega

theorem resField_encodeFields (op : BitVec 6) (rd ra rb : RegIx) :
    resField (encodeFields op rd ra rb) = 0 := by
  apply BitVec.eq_of_toNat_eq
  have hop := op.isLt
  have hd := rd.isLt
  have ha := ra.isLt
  have hb := rb.isLt
  simp only [resField, BitVec.extractLsb'_toNat, Nat.shiftRight_eq_div_pow, encodeFields_toNat]
  simp
  omega

/-- A word with res = 0 is the encoding of its own fields. -/
theorem encodeFields_fields {w : Word} (h : resField w = 0) :
    encodeFields (opField w) (rdField w) (raField w) (rbField w) = w := by
  apply BitVec.eq_of_toNat_eq
  rw [encodeFields_toNat, fields_toNat w, h]
  simp

/-! ### The outcomes of decode -/

/-- What a decoded word says: its row, its zero fields and its legal operands (R96). -/
theorem decode_ok {w : Word} {i : Instr} (h : decode w = .ok i) :
    ∃ row, opEntry (opField w) (rdField w) (raField w) (rbField w) = some (row, i) ∧
      resField w = 0 ∧
      row.rd.reservedOk (rdField w) = true ∧ row.ra.reservedOk (raField w) = true ∧
      row.rb.reservedOk (rbField w) = true ∧
      row.rd.operandOk (rdField w) = true ∧ row.ra.operandOk (raField w) = true ∧
      row.rb.operandOk (rbField w) = true := by
  unfold decode at h
  split at h
  · cases h
  · next row j hrow =>
    split at h
    · cases h
    · next hres =>
      split at h
      · cases h
      · next hop =>
        cases h
        simp only [Bool.not_eq_true', Bool.not_eq_false, Bool.and_eq_true, beq_iff_eq] at hres hop
        exact ⟨row, hrow, hres.1.1.1, hres.1.1.2, hres.1.2, hres.2, hop.1.1, hop.1.2, hop.2⟩

/-- Decode gives no data-dependent code (R234). -/
theorem decode_ne_notOnCurve (w : Word) : decode w ≠ .error .notOnCurve := by
  unfold decode
  split
  · simp
  · split
    · simp
    · split <;> simp

/-- Every error code is 1 to 4 (R232). -/
theorem CmdError.code_bounds (c : CmdError) : c.code ≠ 0 ∧ c.code.toNat ≤ 4 := by
  cases c <;> decide

end Sys2Proof
end

