-- ==== Sys2Proof/Laws/State.lean ====
section
/-! SUPPORT. One lemma for each field of the state under each named update, true by rfl, so that no
proof unfolds a record update. -/

namespace Sys2Proof.Machine

variable (s : State)

/-! ### writeReg -/

@[simp] theorem State.writeReg_f (i : RegIx) (v : FVal) : (s.writeReg i v).f = s.f.set i.val v i.isLt := rfl
@[simp] theorem State.writeReg_ctrl (i : RegIx) (v : FVal) : (s.writeReg i v).ctrl = s.ctrl := rfl
@[simp] theorem State.writeReg_status (i : RegIx) (v : FVal) : (s.writeReg i v).status = s.status := rfl
@[simp] theorem State.writeReg_lastCmd (i : RegIx) (v : FVal) : (s.writeReg i v).lastCmd = s.lastCmd := rfl
@[simp] theorem State.writeReg_snap (i : RegIx) (v : FVal) : (s.writeReg i v).snap = s.snap := rfl
@[simp] theorem State.writeReg_ladder (i : RegIx) (v : FVal) : (s.writeReg i v).ladder = s.ladder := rfl
@[simp] theorem State.writeReg_expTmp (i : RegIx) (v : FVal) : (s.writeReg i v).expTmp = s.expTmp := rfl
@[simp] theorem State.writeReg_cycles (i : RegIx) (v : FVal) : (s.writeReg i v).cycles = s.cycles := rfl
@[simp] theorem State.writeReg_rdata (i : RegIx) (v : FVal) : (s.writeReg i v).rdata = s.rdata := rfl
@[simp] theorem State.writeReg_rstPrev (i : RegIx) (v : FVal) : (s.writeReg i v).rstPrev = s.rstPrev := rfl
@[simp] theorem State.writeReg_inputs (i : RegIx) (v : FVal) : (s.writeReg i v).inputs = s.inputs := rfl
@[simp] theorem State.writeReg_resetDone (i : RegIx) (v : FVal) : (s.writeReg i v).resetDone = s.resetDone := rfl
@[simp] theorem State.writeReg_powerUps (i : RegIx) (v : FVal) : (s.writeReg i v).powerUps = s.powerUps := rfl

/-! ### setStatus -/

@[simp] theorem State.setStatus_f (t : Status) : (s.setStatus t).f = s.f := rfl
@[simp] theorem State.setStatus_ctrl (t : Status) : (s.setStatus t).ctrl = s.ctrl := rfl
@[simp] theorem State.setStatus_status (t : Status) : (s.setStatus t).status = t := rfl
@[simp] theorem State.setStatus_lastCmd (t : Status) : (s.setStatus t).lastCmd = s.lastCmd := rfl
@[simp] theorem State.setStatus_snap (t : Status) : (s.setStatus t).snap = s.snap := rfl
@[simp] theorem State.setStatus_ladder (t : Status) : (s.setStatus t).ladder = s.ladder := rfl
@[simp] theorem State.setStatus_expTmp (t : Status) : (s.setStatus t).expTmp = s.expTmp := rfl
@[simp] theorem State.setStatus_cycles (t : Status) : (s.setStatus t).cycles = s.cycles := rfl
@[simp] theorem State.setStatus_rdata (t : Status) : (s.setStatus t).rdata = s.rdata := rfl
@[simp] theorem State.setStatus_rstPrev (t : Status) : (s.setStatus t).rstPrev = s.rstPrev := rfl
@[simp] theorem State.setStatus_inputs (t : Status) : (s.setStatus t).inputs = s.inputs := rfl
@[simp] theorem State.setStatus_resetDone (t : Status) : (s.setStatus t).resetDone = s.resetDone := rfl
@[simp] theorem State.setStatus_powerUps (t : Status) : (s.setStatus t).powerUps = s.powerUps := rfl

/-! ### setCtrl -/

@[simp] theorem State.setCtrl_f (c : Ctrl) : (s.setCtrl c).f = s.f := rfl
@[simp] theorem State.setCtrl_ctrl (c : Ctrl) : (s.setCtrl c).ctrl = c := rfl
@[simp] theorem State.setCtrl_status (c : Ctrl) : (s.setCtrl c).status = s.status := rfl
@[simp] theorem State.setCtrl_lastCmd (c : Ctrl) : (s.setCtrl c).lastCmd = s.lastCmd := rfl
@[simp] theorem State.setCtrl_snap (c : Ctrl) : (s.setCtrl c).snap = s.snap := rfl
@[simp] theorem State.setCtrl_ladder (c : Ctrl) : (s.setCtrl c).ladder = s.ladder := rfl
@[simp] theorem State.setCtrl_expTmp (c : Ctrl) : (s.setCtrl c).expTmp = s.expTmp := rfl
@[simp] theorem State.setCtrl_cycles (c : Ctrl) : (s.setCtrl c).cycles = s.cycles := rfl
@[simp] theorem State.setCtrl_rdata (c : Ctrl) : (s.setCtrl c).rdata = s.rdata := rfl
@[simp] theorem State.setCtrl_rstPrev (c : Ctrl) : (s.setCtrl c).rstPrev = s.rstPrev := rfl
@[simp] theorem State.setCtrl_inputs (c : Ctrl) : (s.setCtrl c).inputs = s.inputs := rfl
@[simp] theorem State.setCtrl_resetDone (c : Ctrl) : (s.setCtrl c).resetDone = s.resetDone := rfl
@[simp] theorem State.setCtrl_powerUps (c : Ctrl) : (s.setCtrl c).powerUps = s.powerUps := rfl

/-! ### setExp -/

@[simp] theorem State.setExp_f (v : FVal) : (s.setExp v).f = s.f := rfl
@[simp] theorem State.setExp_ctrl (v : FVal) : (s.setExp v).ctrl = s.ctrl := rfl
@[simp] theorem State.setExp_status (v : FVal) : (s.setExp v).status = s.status := rfl
@[simp] theorem State.setExp_lastCmd (v : FVal) : (s.setExp v).lastCmd = s.lastCmd := rfl
@[simp] theorem State.setExp_snap (v : FVal) : (s.setExp v).snap = s.snap := rfl
@[simp] theorem State.setExp_ladder (v : FVal) : (s.setExp v).ladder = s.ladder := rfl
@[simp] theorem State.setExp_expTmp (v : FVal) : (s.setExp v).expTmp = v := rfl
@[simp] theorem State.setExp_cycles (v : FVal) : (s.setExp v).cycles = s.cycles := rfl
@[simp] theorem State.setExp_rdata (v : FVal) : (s.setExp v).rdata = s.rdata := rfl
@[simp] theorem State.setExp_rstPrev (v : FVal) : (s.setExp v).rstPrev = s.rstPrev := rfl
@[simp] theorem State.setExp_inputs (v : FVal) : (s.setExp v).inputs = s.inputs := rfl
@[simp] theorem State.setExp_resetDone (v : FVal) : (s.setExp v).resetDone = s.resetDone := rfl
@[simp] theorem State.setExp_powerUps (v : FVal) : (s.setExp v).powerUps = s.powerUps := rfl

/-! ### setLadder -/

@[simp] theorem State.setLadder_f (w : LadderWork) : (s.setLadder w).f = s.f := rfl
@[simp] theorem State.setLadder_ctrl (w : LadderWork) : (s.setLadder w).ctrl = s.ctrl := rfl
@[simp] theorem State.setLadder_status (w : LadderWork) : (s.setLadder w).status = s.status := rfl
@[simp] theorem State.setLadder_lastCmd (w : LadderWork) : (s.setLadder w).lastCmd = s.lastCmd := rfl
@[simp] theorem State.setLadder_snap (w : LadderWork) : (s.setLadder w).snap = s.snap := rfl
@[simp] theorem State.setLadder_ladder (w : LadderWork) : (s.setLadder w).ladder = w := rfl
@[simp] theorem State.setLadder_expTmp (w : LadderWork) : (s.setLadder w).expTmp = s.expTmp := rfl
@[simp] theorem State.setLadder_cycles (w : LadderWork) : (s.setLadder w).cycles = s.cycles := rfl
@[simp] theorem State.setLadder_rdata (w : LadderWork) : (s.setLadder w).rdata = s.rdata := rfl
@[simp] theorem State.setLadder_rstPrev (w : LadderWork) : (s.setLadder w).rstPrev = s.rstPrev := rfl
@[simp] theorem State.setLadder_inputs (w : LadderWork) : (s.setLadder w).inputs = s.inputs := rfl
@[simp] theorem State.setLadder_resetDone (w : LadderWork) : (s.setLadder w).resetDone = s.resetDone := rfl
@[simp] theorem State.setLadder_powerUps (w : LadderWork) : (s.setLadder w).powerUps = s.powerUps := rfl

/-! ### clearHidden -/

@[simp] theorem State.clearHidden_f : (s.clearHidden).f = s.f := rfl
@[simp] theorem State.clearHidden_ctrl : (s.clearHidden).ctrl = s.ctrl := rfl
@[simp] theorem State.clearHidden_status : (s.clearHidden).status = s.status := rfl
@[simp] theorem State.clearHidden_lastCmd : (s.clearHidden).lastCmd = s.lastCmd := rfl
@[simp] theorem State.clearHidden_snap : (s.clearHidden).snap = Snapshot.cleared := rfl
@[simp] theorem State.clearHidden_ladder : (s.clearHidden).ladder = LadderWork.cleared := rfl
@[simp] theorem State.clearHidden_expTmp : (s.clearHidden).expTmp = 0 := rfl
@[simp] theorem State.clearHidden_cycles : (s.clearHidden).cycles = 0 := rfl
@[simp] theorem State.clearHidden_rdata : (s.clearHidden).rdata = s.rdata := rfl
@[simp] theorem State.clearHidden_rstPrev : (s.clearHidden).rstPrev = s.rstPrev := rfl
@[simp] theorem State.clearHidden_inputs : (s.clearHidden).inputs = s.inputs := rfl
@[simp] theorem State.clearHidden_resetDone : (s.clearHidden).resetDone = s.resetDone := rfl
@[simp] theorem State.clearHidden_powerUps : (s.clearHidden).powerUps = s.powerUps := rfl

/-! ### acceptFor -/

@[simp] theorem State.acceptFor_f (w : Word) (n : Nat) : (s.acceptFor w n).f = s.f := rfl
@[simp] theorem State.acceptFor_ctrl (w : Word) (n : Nat) : (s.acceptFor w n).ctrl = s.ctrl := rfl
@[simp] theorem State.acceptFor_status (w : Word) (n : Nat) : (s.acceptFor w n).status = s.status.accepted := rfl
@[simp] theorem State.acceptFor_lastCmd (w : Word) (n : Nat) : (s.acceptFor w n).lastCmd = w := rfl
@[simp] theorem State.acceptFor_snap (w : Word) (n : Nat) : (s.acceptFor w n).snap = s.snapshot w := rfl
@[simp] theorem State.acceptFor_ladder (w : Word) (n : Nat) : (s.acceptFor w n).ladder = s.ladder := rfl
@[simp] theorem State.acceptFor_expTmp (w : Word) (n : Nat) : (s.acceptFor w n).expTmp = s.expTmp := rfl
@[simp] theorem State.acceptFor_cycles (w : Word) (n : Nat) : (s.acceptFor w n).cycles = n := rfl
@[simp] theorem State.acceptFor_rdata (w : Word) (n : Nat) : (s.acceptFor w n).rdata = s.rdata := rfl
@[simp] theorem State.acceptFor_rstPrev (w : Word) (n : Nat) : (s.acceptFor w n).rstPrev = s.rstPrev := rfl
@[simp] theorem State.acceptFor_inputs (w : Word) (n : Nat) : (s.acceptFor w n).inputs = s.inputs := rfl
@[simp] theorem State.acceptFor_resetDone (w : Word) (n : Nat) : (s.acceptFor w n).resetDone = s.resetDone := rfl
@[simp] theorem State.acceptFor_powerUps (w : Word) (n : Nat) : (s.acceptFor w n).powerUps = s.powerUps := rfl

/-! ### tick -/

@[simp] theorem State.tick_f : (s.tick).f = s.f := rfl
@[simp] theorem State.tick_ctrl : (s.tick).ctrl = s.ctrl := rfl
@[simp] theorem State.tick_status : (s.tick).status = s.status := rfl
@[simp] theorem State.tick_lastCmd : (s.tick).lastCmd = s.lastCmd := rfl
@[simp] theorem State.tick_snap : (s.tick).snap = s.snap := rfl
@[simp] theorem State.tick_ladder : (s.tick).ladder = s.ladder := rfl
@[simp] theorem State.tick_expTmp : (s.tick).expTmp = s.expTmp := rfl
@[simp] theorem State.tick_cycles : (s.tick).cycles = s.cycles - 1 := rfl
@[simp] theorem State.tick_rdata : (s.tick).rdata = s.rdata := rfl
@[simp] theorem State.tick_rstPrev : (s.tick).rstPrev = s.rstPrev := rfl
@[simp] theorem State.tick_inputs : (s.tick).inputs = s.inputs := rfl
@[simp] theorem State.tick_resetDone : (s.tick).resetDone = s.resetDone := rfl
@[simp] theorem State.tick_powerUps : (s.tick).powerUps = s.powerUps := rfl

/-! ### popInput -/

@[simp] theorem State.popInput_f : (s.popInput).f = s.f := rfl
@[simp] theorem State.popInput_ctrl : (s.popInput).ctrl = s.ctrl := rfl
@[simp] theorem State.popInput_status : (s.popInput).status = s.status := rfl
@[simp] theorem State.popInput_lastCmd : (s.popInput).lastCmd = s.lastCmd := rfl
@[simp] theorem State.popInput_snap : (s.popInput).snap = s.snap := rfl
@[simp] theorem State.popInput_ladder : (s.popInput).ladder = s.ladder := rfl
@[simp] theorem State.popInput_expTmp : (s.popInput).expTmp = s.expTmp := rfl
@[simp] theorem State.popInput_cycles : (s.popInput).cycles = s.cycles := rfl
@[simp] theorem State.popInput_rdata : (s.popInput).rdata = s.rdata := rfl
@[simp] theorem State.popInput_rstPrev : (s.popInput).rstPrev = s.rstPrev := rfl
@[simp] theorem State.popInput_inputs : (s.popInput).inputs = s.inputs.tail := rfl
@[simp] theorem State.popInput_resetDone : (s.popInput).resetDone = s.resetDone := rfl
@[simp] theorem State.popInput_powerUps : (s.popInput).powerUps = s.powerUps := rfl

/-! ### beginCycle -/

@[simp] theorem State.beginCycle_f (p : Pins) : (s.beginCycle p).f = s.f := rfl
@[simp] theorem State.beginCycle_ctrl (p : Pins) : (s.beginCycle p).ctrl = s.ctrl := rfl
@[simp] theorem State.beginCycle_status (p : Pins) : (s.beginCycle p).status = s.status := rfl
@[simp] theorem State.beginCycle_lastCmd (p : Pins) : (s.beginCycle p).lastCmd = s.lastCmd := rfl
@[simp] theorem State.beginCycle_snap (p : Pins) : (s.beginCycle p).snap = s.snap := rfl
@[simp] theorem State.beginCycle_ladder (p : Pins) : (s.beginCycle p).ladder = s.ladder := rfl
@[simp] theorem State.beginCycle_expTmp (p : Pins) : (s.beginCycle p).expTmp = s.expTmp := rfl
@[simp] theorem State.beginCycle_cycles (p : Pins) : (s.beginCycle p).cycles = s.cycles := rfl
@[simp] theorem State.beginCycle_rdata (p : Pins) : (s.beginCycle p).rdata = readData s p := rfl
@[simp] theorem State.beginCycle_rstPrev (p : Pins) : (s.beginCycle p).rstPrev = false := rfl
@[simp] theorem State.beginCycle_inputs (p : Pins) : (s.beginCycle p).inputs = s.inputs.tail := rfl
@[simp] theorem State.beginCycle_resetDone (p : Pins) : (s.beginCycle p).resetDone = s.resetDone := rfl
@[simp] theorem State.beginCycle_powerUps (p : Pins) : (s.beginCycle p).powerUps = s.powerUps := rfl

/-! ### resetEdge -/

@[simp] theorem State.resetEdge_f : (s.resetEdge).f = State.reset.f := rfl
@[simp] theorem State.resetEdge_ctrl : (s.resetEdge).ctrl = State.reset.ctrl := rfl
@[simp] theorem State.resetEdge_status : (s.resetEdge).status = State.reset.status := rfl
@[simp] theorem State.resetEdge_lastCmd : (s.resetEdge).lastCmd = State.reset.lastCmd := rfl
@[simp] theorem State.resetEdge_snap : (s.resetEdge).snap = State.reset.snap := rfl
@[simp] theorem State.resetEdge_ladder : (s.resetEdge).ladder = State.reset.ladder := rfl
@[simp] theorem State.resetEdge_expTmp : (s.resetEdge).expTmp = State.reset.expTmp := rfl
@[simp] theorem State.resetEdge_cycles : (s.resetEdge).cycles = State.reset.cycles := rfl
@[simp] theorem State.resetEdge_rdata : (s.resetEdge).rdata = s.rdata := rfl
@[simp] theorem State.resetEdge_rstPrev : (s.resetEdge).rstPrev = State.reset.rstPrev := rfl
@[simp] theorem State.resetEdge_inputs : (s.resetEdge).inputs = s.inputs := rfl
@[simp] theorem State.resetEdge_resetDone : (s.resetEdge).resetDone = State.reset.resetDone := rfl
@[simp] theorem State.resetEdge_powerUps : (s.resetEdge).powerUps = s.powerUps := rfl

/-! ### dropWrite -/

@[simp] theorem State.dropWrite_f : (s.dropWrite).f = s.f := rfl
@[simp] theorem State.dropWrite_ctrl : (s.dropWrite).ctrl = s.ctrl := rfl
@[simp] theorem State.dropWrite_status : (s.dropWrite).status = s.status.overrun := rfl
@[simp] theorem State.dropWrite_lastCmd : (s.dropWrite).lastCmd = s.lastCmd := rfl
@[simp] theorem State.dropWrite_snap : (s.dropWrite).snap = s.snap := rfl
@[simp] theorem State.dropWrite_ladder : (s.dropWrite).ladder = s.ladder := rfl
@[simp] theorem State.dropWrite_expTmp : (s.dropWrite).expTmp = s.expTmp := rfl
@[simp] theorem State.dropWrite_cycles : (s.dropWrite).cycles = s.cycles := rfl
@[simp] theorem State.dropWrite_rdata : (s.dropWrite).rdata = s.rdata := rfl
@[simp] theorem State.dropWrite_rstPrev : (s.dropWrite).rstPrev = s.rstPrev := rfl
@[simp] theorem State.dropWrite_inputs : (s.dropWrite).inputs = s.inputs := rfl
@[simp] theorem State.dropWrite_resetDone : (s.dropWrite).resetDone = s.resetDone := rfl
@[simp] theorem State.dropWrite_powerUps : (s.dropWrite).powerUps = s.powerUps := rfl

/-! ### writeRegs, by induction over the write list -/

@[simp] theorem State.writeRegs_ctrl (l : List (RegIx × FVal)) : (s.writeRegs l).ctrl = s.ctrl := by
  induction l generalizing s with
  | nil => rfl
  | cons x l ih => exact (ih (s.writeReg x.1 x.2)).trans rfl

@[simp] theorem State.writeRegs_status (l : List (RegIx × FVal)) : (s.writeRegs l).status = s.status := by
  induction l generalizing s with
  | nil => rfl
  | cons x l ih => exact (ih (s.writeReg x.1 x.2)).trans rfl

@[simp] theorem State.writeRegs_lastCmd (l : List (RegIx × FVal)) : (s.writeRegs l).lastCmd = s.lastCmd := by
  induction l generalizing s with
  | nil => rfl
  | cons x l ih => exact (ih (s.writeReg x.1 x.2)).trans rfl

@[simp] theorem State.writeRegs_snap (l : List (RegIx × FVal)) : (s.writeRegs l).snap = s.snap := by
  induction l generalizing s with
  | nil => rfl
  | cons x l ih => exact (ih (s.writeReg x.1 x.2)).trans rfl

@[simp] theorem State.writeRegs_ladder (l : List (RegIx × FVal)) : (s.writeRegs l).ladder = s.ladder := by
  induction l generalizing s with
  | nil => rfl
  | cons x l ih => exact (ih (s.writeReg x.1 x.2)).trans rfl

@[simp] theorem State.writeRegs_expTmp (l : List (RegIx × FVal)) : (s.writeRegs l).expTmp = s.expTmp := by
  induction l generalizing s with
  | nil => rfl
  | cons x l ih => exact (ih (s.writeReg x.1 x.2)).trans rfl

@[simp] theorem State.writeRegs_cycles (l : List (RegIx × FVal)) : (s.writeRegs l).cycles = s.cycles := by
  induction l generalizing s with
  | nil => rfl
  | cons x l ih => exact (ih (s.writeReg x.1 x.2)).trans rfl

@[simp] theorem State.writeRegs_rdata (l : List (RegIx × FVal)) : (s.writeRegs l).rdata = s.rdata := by
  induction l generalizing s with
  | nil => rfl
  | cons x l ih => exact (ih (s.writeReg x.1 x.2)).trans rfl

@[simp] theorem State.writeRegs_rstPrev (l : List (RegIx × FVal)) : (s.writeRegs l).rstPrev = s.rstPrev := by
  induction l generalizing s with
  | nil => rfl
  | cons x l ih => exact (ih (s.writeReg x.1 x.2)).trans rfl

@[simp] theorem State.writeRegs_inputs (l : List (RegIx × FVal)) : (s.writeRegs l).inputs = s.inputs := by
  induction l generalizing s with
  | nil => rfl
  | cons x l ih => exact (ih (s.writeReg x.1 x.2)).trans rfl

@[simp] theorem State.writeRegs_resetDone (l : List (RegIx × FVal)) : (s.writeRegs l).resetDone = s.resetDone := by
  induction l generalizing s with
  | nil => rfl
  | cons x l ih => exact (ih (s.writeReg x.1 x.2)).trans rfl

@[simp] theorem State.writeRegs_powerUps (l : List (RegIx × FVal)) : (s.writeRegs l).powerUps = s.powerUps := by
  induction l generalizing s with
  | nil => rfl
  | cons x l ih => exact (ih (s.writeReg x.1 x.2)).trans rfl

@[simp] theorem State.writeRegs_nil : s.writeRegs [] = s := rfl
@[simp] theorem State.writeRegs_cons (i : RegIx) (v : FVal) (l : List (RegIx × FVal)) :
    s.writeRegs ((i, v) :: l) = (s.writeReg i v).writeRegs l := rfl

/-! ### Reading the snapshot under the updates that leave it alone -/

@[simp] theorem State.src_writeReg (i : RegIx) (v : FVal) (j : RegIx) : (s.writeReg i v).src j = s.src j := rfl
@[simp] theorem State.srcU_writeReg (i : RegIx) (v : FVal) (j : RegIx) : (s.writeReg i v).srcU j = s.srcU j := rfl
@[simp] theorem State.srcQuad_writeReg (i : RegIx) (v : FVal) (j : RegIx) : (s.writeReg i v).srcQuad j = s.srcQuad j := rfl
@[simp] theorem State.src_setStatus (t : Status) (j : RegIx) : (s.setStatus t).src j = s.src j := rfl
@[simp] theorem State.srcU_setStatus (t : Status) (j : RegIx) : (s.setStatus t).srcU j = s.srcU j := rfl
@[simp] theorem State.srcQuad_setStatus (t : Status) (j : RegIx) : (s.setStatus t).srcQuad j = s.srcQuad j := rfl
@[simp] theorem State.src_setExp (v : FVal) (j : RegIx) : (s.setExp v).src j = s.src j := rfl
@[simp] theorem State.srcU_setExp (v : FVal) (j : RegIx) : (s.setExp v).srcU j = s.srcU j := rfl
@[simp] theorem State.srcQuad_setExp (v : FVal) (j : RegIx) : (s.setExp v).srcQuad j = s.srcQuad j := rfl
@[simp] theorem State.src_setLadder (w : LadderWork) (j : RegIx) : (s.setLadder w).src j = s.src j := rfl
@[simp] theorem State.srcU_setLadder (w : LadderWork) (j : RegIx) : (s.setLadder w).srcU j = s.srcU j := rfl
@[simp] theorem State.srcQuad_setLadder (w : LadderWork) (j : RegIx) : (s.setLadder w).srcQuad j = s.srcQuad j := rfl
@[simp] theorem State.src_beginCycle (p : Pins) (j : RegIx) : (s.beginCycle p).src j = s.src j := rfl
@[simp] theorem State.srcU_beginCycle (p : Pins) (j : RegIx) : (s.beginCycle p).srcU j = s.srcU j := rfl
@[simp] theorem State.srcQuad_beginCycle (p : Pins) (j : RegIx) : (s.beginCycle p).srcQuad j = s.srcQuad j := rfl

/-! ### STATUS -/

@[simp] theorem Status.overrun_busy (t : Status) : (t.overrun).busy = t.busy := rfl
@[simp] theorem Status.overrun_done (t : Status) : (t.overrun).done = t.done := rfl
@[simp] theorem Status.overrun_err (t : Status) : (t.overrun).err = t.err := rfl
@[simp] theorem Status.overrun_ovr (t : Status) : (t.overrun).ovr = true := rfl
@[simp] theorem Status.overrun_carry (t : Status) : (t.overrun).carry = t.carry := rfl
@[simp] theorem Status.overrun_noroot (t : Status) : (t.overrun).noroot = t.noroot := rfl
@[simp] theorem Status.overrun_oncurve (t : Status) : (t.overrun).oncurve = t.oncurve := rfl
@[simp] theorem Status.overrun_errcode (t : Status) : (t.overrun).errcode = t.errcode := rfl
@[simp] theorem Status.accepted_busy (t : Status) : (t.accepted).busy = true := rfl
@[simp] theorem Status.accepted_done (t : Status) : (t.accepted).done = false := rfl
@[simp] theorem Status.accepted_err (t : Status) : (t.accepted).err = false := rfl
@[simp] theorem Status.accepted_ovr (t : Status) : (t.accepted).ovr = t.ovr := rfl
@[simp] theorem Status.accepted_carry (t : Status) : (t.accepted).carry = t.carry := rfl
@[simp] theorem Status.accepted_noroot (t : Status) : (t.accepted).noroot = t.noroot := rfl
@[simp] theorem Status.accepted_oncurve (t : Status) : (t.accepted).oncurve = t.oncurve := rfl
@[simp] theorem Status.accepted_errcode (t : Status) : (t.accepted).errcode = 0 := rfl
@[simp] theorem Status.finished_busy (t : Status) : (t.finished).busy = false := rfl
@[simp] theorem Status.finished_done (t : Status) : (t.finished).done = true := rfl
@[simp] theorem Status.finished_err (t : Status) : (t.finished).err = t.err := rfl
@[simp] theorem Status.finished_ovr (t : Status) : (t.finished).ovr = t.ovr := rfl
@[simp] theorem Status.finished_carry (t : Status) : (t.finished).carry = t.carry := rfl
@[simp] theorem Status.finished_noroot (t : Status) : (t.finished).noroot = t.noroot := rfl
@[simp] theorem Status.finished_oncurve (t : Status) : (t.finished).oncurve = t.oncurve := rfl
@[simp] theorem Status.finished_errcode (t : Status) : (t.finished).errcode = t.errcode := rfl
@[simp] theorem Status.failed_busy (t : Status) (c : CmdError) : (t.failed c).busy = t.busy := rfl
@[simp] theorem Status.failed_done (t : Status) (c : CmdError) : (t.failed c).done = t.done := rfl
@[simp] theorem Status.failed_err (t : Status) (c : CmdError) : (t.failed c).err = true := rfl
@[simp] theorem Status.failed_ovr (t : Status) (c : CmdError) : (t.failed c).ovr = t.ovr := rfl
@[simp] theorem Status.failed_carry (t : Status) (c : CmdError) : (t.failed c).carry = t.carry := rfl
@[simp] theorem Status.failed_noroot (t : Status) (c : CmdError) : (t.failed c).noroot = t.noroot := rfl
@[simp] theorem Status.failed_oncurve (t : Status) (c : CmdError) : (t.failed c).oncurve = t.oncurve := rfl
@[simp] theorem Status.failed_errcode (t : Status) (c : CmdError) : (t.failed c).errcode = c.code := rfl
@[simp] theorem Status.writeOneToClear_busy (t : Status) (v : Word) : (t.writeOneToClear v).busy = t.busy := rfl
@[simp] theorem Status.writeOneToClear_done (t : Status) (v : Word) : (t.writeOneToClear v).done = (t.done && !v.getLsbD 1) := rfl
@[simp] theorem Status.writeOneToClear_err (t : Status) (v : Word) : (t.writeOneToClear v).err = (t.err && !v.getLsbD 2) := rfl
@[simp] theorem Status.writeOneToClear_ovr (t : Status) (v : Word) : (t.writeOneToClear v).ovr = (t.ovr && !v.getLsbD 3) := rfl
@[simp] theorem Status.writeOneToClear_carry (t : Status) (v : Word) : (t.writeOneToClear v).carry = t.carry := rfl
@[simp] theorem Status.writeOneToClear_noroot (t : Status) (v : Word) : (t.writeOneToClear v).noroot = t.noroot := rfl
@[simp] theorem Status.writeOneToClear_oncurve (t : Status) (v : Word) : (t.writeOneToClear v).oncurve = t.oncurve := rfl
@[simp] theorem Status.writeOneToClear_errcode (t : Status) (v : Word) : (t.writeOneToClear v).errcode = t.errcode := rfl
@[simp] theorem Status.setCarry_busy (b : Bool) (t : Status) : (Status.setCarry b t).busy = t.busy := rfl
@[simp] theorem Status.setCarry_done (b : Bool) (t : Status) : (Status.setCarry b t).done = t.done := rfl
@[simp] theorem Status.setCarry_err (b : Bool) (t : Status) : (Status.setCarry b t).err = t.err := rfl
@[simp] theorem Status.setCarry_ovr (b : Bool) (t : Status) : (Status.setCarry b t).ovr = t.ovr := rfl
@[simp] theorem Status.setCarry_carry (b : Bool) (t : Status) : (Status.setCarry b t).carry = b := rfl
@[simp] theorem Status.setCarry_noroot (b : Bool) (t : Status) : (Status.setCarry b t).noroot = t.noroot := rfl
@[simp] theorem Status.setCarry_oncurve (b : Bool) (t : Status) : (Status.setCarry b t).oncurve = t.oncurve := rfl
@[simp] theorem Status.setCarry_errcode (b : Bool) (t : Status) : (Status.setCarry b t).errcode = t.errcode := rfl
@[simp] theorem Status.setNoroot_busy (b : Bool) (t : Status) : (Status.setNoroot b t).busy = t.busy := rfl
@[simp] theorem Status.setNoroot_done (b : Bool) (t : Status) : (Status.setNoroot b t).done = t.done := rfl
@[simp] theorem Status.setNoroot_err (b : Bool) (t : Status) : (Status.setNoroot b t).err = t.err := rfl
@[simp] theorem Status.setNoroot_ovr (b : Bool) (t : Status) : (Status.setNoroot b t).ovr = t.ovr := rfl
@[simp] theorem Status.setNoroot_carry (b : Bool) (t : Status) : (Status.setNoroot b t).carry = t.carry := rfl
@[simp] theorem Status.setNoroot_noroot (b : Bool) (t : Status) : (Status.setNoroot b t).noroot = b := rfl
@[simp] theorem Status.setNoroot_oncurve (b : Bool) (t : Status) : (Status.setNoroot b t).oncurve = t.oncurve := rfl
@[simp] theorem Status.setNoroot_errcode (b : Bool) (t : Status) : (Status.setNoroot b t).errcode = t.errcode := rfl
@[simp] theorem Status.setOncurve_busy (b : Bool) (t : Status) : (Status.setOncurve b t).busy = t.busy := rfl
@[simp] theorem Status.setOncurve_done (b : Bool) (t : Status) : (Status.setOncurve b t).done = t.done := rfl
@[simp] theorem Status.setOncurve_err (b : Bool) (t : Status) : (Status.setOncurve b t).err = t.err := rfl
@[simp] theorem Status.setOncurve_ovr (b : Bool) (t : Status) : (Status.setOncurve b t).ovr = t.ovr := rfl
@[simp] theorem Status.setOncurve_carry (b : Bool) (t : Status) : (Status.setOncurve b t).carry = t.carry := rfl
@[simp] theorem Status.setOncurve_noroot (b : Bool) (t : Status) : (Status.setOncurve b t).noroot = t.noroot := rfl
@[simp] theorem Status.setOncurve_oncurve (b : Bool) (t : Status) : (Status.setOncurve b t).oncurve = b := rfl
@[simp] theorem Status.setOncurve_errcode (b : Bool) (t : Status) : (Status.setOncurve b t).errcode = t.errcode := rfl
@[simp] theorem Status.keep_eq (t : Status) : Status.keep t = t := rfl

end Sys2Proof.Machine
end

