-- ==== Sys2Proof/Laws/Ops.lean ====
section
/-! SUPPORT. One lemma for each shared operation, saying all that it does. -/

namespace Sys2Proof.Machine

open Sys2Proof.Safety

/-! ### Register writes -/

theorem State.writeReg_get (s : State) (i j : RegIx) (v : FVal) :
    (s.writeReg i v).f[j.val] = if i = j then v else s.f[j.val] := by
  rw [State.writeReg_f, Vector.getElem_set]
  simp only [Fin.ext_iff]

/-- A register that is in no write of the list is unchanged. -/
theorem State.writeRegs_get_of_not_mem (l : List (RegIx × FVal)) (j : RegIx) :
    ∀ s : State, j ∉ l.map Prod.fst → (s.writeRegs l).f[j.val] = s.f[j.val] := by
  induction l with
  | nil => intro s _; rfl
  | cons x l ih =>
    intro s h
    simp only [List.map_cons, List.mem_cons, not_or] at h
    rw [State.writeRegs_cons, ih _ h.2, State.writeReg_get, if_neg (fun e => h.1 e.symm)]

/-- The last write of the list to a register stands (R119). -/
theorem State.writeRegs_append_get (s : State) (l : List (RegIx × FVal)) (i j : RegIx) (v : FVal) :
    (s.writeRegs (l ++ [(i, v)])).f[j.val] = if i = j then v else (s.writeRegs l).f[j.val] := by
  induction l generalizing s with
  | nil => exact State.writeReg_get s i j v
  | cons x l ih => exact ih (s.writeReg x.1 x.2)

/-! ### Completion (R231) -/

/-- All that a successful completion does. -/
theorem succeed_spec (s : State) (ws : List (RegIx × FVal)) (fl : Status → Status) :
    ∃ t, succeed s ws fl = .next t ∧ CompletionFrame s t ∧ t.f = (s.writeRegs ws).f ∧
      t.status = (fl s.status).finished :=
  ⟨_, rfl, by constructor <;> simp, by simp, by simp⟩

/-- All that a failed completion does: no register and no result flag is written. -/
theorem failWith_spec (s : State) (c : CmdError) :
    ∃ t, failWith s c = .next t ∧ CompletionFrame s t ∧ t.f = s.f ∧
      t.status = { s.status with busy := false, done := true, err := true, errcode := c.code } :=
  ⟨_, rfl, by constructor <;> simp, by simp, by simp [Status.failed, Status.finished]⟩

/-- INV without its temporary (R45, R133). -/
theorem execInv_eq (rd ra : RegIx) (s : State) :
    execInv rd ra s = succeed (s.setExp (invP (s.src ra))) [(rd, invP (s.src ra))] Status.keep := by
  simp only [execInv, State.setExp_expTmp]

/-- SQRT without its temporary (R45, R136). -/
theorem execSqrt_eq (rd ra : RegIx) (s : State) :
    execSqrt rd ra s = succeed (s.setExp (sqrtCandidate (s.src ra))) [(rd, (sqrtP (s.src ra)).r)]
      (Status.setNoroot (sqrtP (s.src ra)).noroot) := by
  simp only [execSqrt, State.setExp_expTmp, sqrtP]

/-- LADDER without its temporaries (R45, R177). -/
theorem execLadder_eq (rd ra rb : RegIx) (s : State) :
    execLadder rd ra rb s =
      succeed ((s.setLadder (ladderRun (s.src ra) (s.srcU rb))).setExp
          (invP (ladderRun (s.src ra) (s.srcU rb)).z2))
        [(rd, mulP (ladderRun (s.src ra) (s.srcU rb)).x2 (invP (ladderRun (s.src ra) (s.srcU rb)).z2))]
        Status.keep := by
  simp only [execLadder, State.setExp_expTmp, State.setExp_ladder, State.setLadder_ladder]

/-- EDENC without its temporary, on an aligned quad (R45, R210). -/
theorem execEdenc_eq (rd ra : RegIx) (s : State) (h : isQuadBase ra = true) :
    execEdenc rd ra s =
      succeed (s.setExp (invP (s.srcQuad ra).z))
        [(rd, edEncWith (invP (s.srcQuad ra).z) (s.srcQuad ra))] Status.keep := by
  simp only [execEdenc, h, if_true, State.setExp_expTmp]

/-- How a command completes: it succeeds with some writes and one of the four flag effects, or fails. -/
theorem exec_cases (i : Instr) (s : State) :
    (∃ s' ws fl, exec i s = succeed s' ws fl ∧ s'.f = s.f ∧ s'.status = s.status ∧
      (∀ t, CompletionFrame s' t → CompletionFrame s t) ∧
      (fl = Status.keep ∨ (∃ b, fl = Status.setCarry b) ∨ (∃ b, fl = Status.setNoroot b) ∨
        (∃ b, fl = Status.setOncurve b))) ∨
    ∃ c, exec i s = failWith s c := by
  have self : ∀ t, CompletionFrame s t → CompletionFrame s t := fun _ h => h
  have hid (s' : State) (h : ∃ w v, s' = (s.setLadder w).setExp v ∨ s' = s.setExp v) :
      ∀ t, CompletionFrame s' t → CompletionFrame s t := by
    obtain ⟨w, v, rfl | rfl⟩ := h <;> exact fun t h => ⟨h.1, h.2, h.3, h.4, h.5, h.6, h.7, h.8, h.9, h.10, h.11⟩
  cases i with
  | nop => exact .inl ⟨s, _, _, rfl, rfl, rfl, self, .inl rfl⟩
  | add rd ra rb => exact .inl ⟨s, _, _, rfl, rfl, rfl, self, .inr (.inl ⟨_, rfl⟩)⟩
  | addm rd ra rb => exact .inl ⟨s, _, _, rfl, rfl, rfl, self, .inl rfl⟩
  | subm rd ra rb => exact .inl ⟨s, _, _, rfl, rfl, rfl, self, .inl rfl⟩
  | mulm rd ra rb => exact .inl ⟨s, _, _, rfl, rfl, rfl, self, .inl rfl⟩
  | sqrm rd ra => exact .inl ⟨s, _, _, rfl, rfl, rfl, self, .inl rfl⟩
  | inv rd ra =>
    exact .inl ⟨_, _, _, execInv_eq rd ra s, State.setExp_f _ _, State.setExp_status _ _, hid _ ⟨LadderWork.cleared, _, .inr rfl⟩, .inl rfl⟩
  | sqrt rd ra =>
    exact .inl ⟨_, _, _, execSqrt_eq rd ra s, State.setExp_f _ _, State.setExp_status _ _, hid _ ⟨LadderWork.cleared, _, .inr rfl⟩, .inr (.inr (.inl ⟨_, rfl⟩))⟩
  | red rd ra => exact .inl ⟨s, _, _, rfl, rfl, rfl, self, .inl rfl⟩
  | mov rd ra => exact .inl ⟨s, _, _, rfl, rfl, rfl, self, .inl rfl⟩
  | cswap rd ra rb => exact .inl ⟨s, _, _, rfl, rfl, rfl, self, .inl rfl⟩
  | ldk rd k =>
    simp only [exec, execLdk]
    split
    · exact .inl ⟨s, _, _, rfl, rfl, rfl, self, .inl rfl⟩
    · exact .inr ⟨_, rfl⟩
  | clamp rd ra => exact .inl ⟨s, _, _, rfl, rfl, rfl, self, .inl rfl⟩
  | lstep rd ra rb =>
    simp only [exec, execLstep]
    split
    · exact .inl ⟨s, _, _, rfl, rfl, rfl, self, .inl rfl⟩
    · exact .inr ⟨_, rfl⟩
  | ladder rd ra rb =>
    exact .inl ⟨_, _, _, execLadder_eq rd ra rb s,
      (State.setExp_f _ _).trans (State.setLadder_f _ _),
      (State.setExp_status _ _).trans (State.setLadder_status _ _), hid _ ⟨_, _, .inl rfl⟩, .inl rfl⟩
  | edadd rd ra rb =>
    simp only [exec, execEdadd]
    split
    · exact .inl ⟨s, _, _, rfl, rfl, rfl, self, .inl rfl⟩
    · exact .inr ⟨_, rfl⟩
  | eddbl rd ra =>
    simp only [exec, execEddbl]
    split
    · exact .inl ⟨s, _, _, rfl, rfl, rfl, self, .inl rfl⟩
    · exact .inr ⟨_, rfl⟩
  | edenc rd ra =>
    cases h : isQuadBase ra
    · exact .inr ⟨.badOperand, by simp [exec, execEdenc, h]⟩
    · exact .inl ⟨_, _, _, execEdenc_eq rd ra s h, State.setExp_f _ _, State.setExp_status _ _,
        hid _ ⟨LadderWork.cleared, _, .inr rfl⟩, .inl rfl⟩
  | eddec rd ra =>
    simp only [exec, execEddec]
    split
    · split
      · exact .inl ⟨s, _, _, rfl, rfl, rfl, self, .inl rfl⟩
      · exact .inr ⟨_, rfl⟩
    · exact .inr ⟨_, rfl⟩
  | edchk ra => exact .inl ⟨s, _, _, rfl, rfl, rfl, self, .inr (.inr (.inr ⟨_, rfl⟩))⟩

/-- Every command completes: BUSY falls, DONE rises, OVR and the frame are kept, and ERR and ERRCODE
either stay or report one code (R231). -/
theorem exec_completes (i : Instr) (s : State) :
    ∃ t, exec i s = .next t ∧ CompletionFrame s t ∧ t.status.busy = false ∧ t.status.done = true ∧
      t.status.ovr = s.status.ovr ∧
      ((t.status.err = s.status.err ∧ t.status.errcode = s.status.errcode) ∨
        ∃ c : CmdError, exec i s = failWith s c ∧ t.status.err = true ∧ t.status.errcode = c.code) := by
  rcases exec_cases i s with ⟨s', ws, fl, he, hf, hst, hfr, hfl⟩ | ⟨c, he⟩
  · obtain ⟨t, ht, hframe, -, hs⟩ := succeed_spec s' ws fl
    refine ⟨t, he.trans ht, hfr t hframe, ?_⟩
    rw [hs, hst]
    rcases hfl with rfl | ⟨b, rfl⟩ | ⟨b, rfl⟩ | ⟨b, rfl⟩ <;> simp
  · obtain ⟨t, ht, hframe, -, hs⟩ := failWith_spec s c
    exact ⟨t, he.trans ht, hframe, by simp [hs], by simp [hs], by simp [hs],
      .inr ⟨c, he, by simp [hs], by simp [hs]⟩⟩

/-- Writing the same list gives the same register file from equal ones. -/
theorem State.writeRegs_f_congr (l : List (RegIx × FVal)) :
    ∀ s s' : State, s.f = s'.f → (s.writeRegs l).f = (s'.writeRegs l).f := by
  induction l with
  | nil => exact fun _ _ h => h
  | cons x l ih => exact fun s s' h => ih _ _ (by rw [State.writeReg_f, State.writeReg_f, h])

/-- Two successful completions with the same writes on equal registers and STATUS agree on both. -/
theorem succeed_congr {s s' : State} (hf : s.f = s'.f) (hs : s.status = s'.status)
    (ws : List (RegIx × FVal)) (fl : Status → Status) :
    ∃ t t', succeed s ws fl = .next t ∧ succeed s' ws fl = .next t' ∧ t.f = t'.f ∧
      t.status = t'.status := by
  obtain ⟨t, ht, -, htf, hts⟩ := succeed_spec s ws fl
  obtain ⟨t', ht', -, htf', hts'⟩ := succeed_spec s' ws fl
  exact ⟨t, t', ht, ht', by rw [htf, htf', State.writeRegs_f_congr ws s s' hf], by rw [hts, hts', hs]⟩

/-- Two failed completions with the same code on equal registers and STATUS agree on both. -/
theorem failWith_congr {s s' : State} (hf : s.f = s'.f) (hs : s.status = s'.status) (c : CmdError) :
    ∃ t t', failWith s c = .next t ∧ failWith s' c = .next t' ∧ t.f = t'.f ∧ t.status = t'.status := by
  obtain ⟨t, ht, -, htf, hts⟩ := failWith_spec s c
  obtain ⟨t', ht', -, htf', hts'⟩ := failWith_spec s' c
  exact ⟨t, t', ht, ht', by rw [htf, htf', hf], by rw [hts, hts', hs]⟩

/-- A command computes from the snapshot, the registers and STATUS alone. -/
theorem exec_congr (i : Instr) {s s' : State} (hsnap : s.snap = s'.snap) (hf : s.f = s'.f)
    (hs : s.status = s'.status) :
    ∃ t t', exec i s = .next t ∧ exec i s' = .next t' ∧ t.f = t'.f ∧ t.status = t'.status := by
  have src (j : RegIx) : s.src j = s'.src j := by simp only [State.src, hsnap]
  have quad (j : RegIx) : s.srcQuad j = s'.srcQuad j := by simp only [State.srcQuad, src]
  have srcU (j : RegIx) : s.srcU j = s'.srcU j := by simp only [State.srcU, src, hsnap]
  have exp (v : FVal) : (s.setExp v).f = (s'.setExp v).f ∧ (s.setExp v).status = (s'.setExp v).status :=
    ⟨by rw [State.setExp_f, State.setExp_f, hf], by rw [State.setExp_status, State.setExp_status, hs]⟩
  cases i with
  | nop => exact succeed_congr hf hs _ _
  | add rd ra rb => simp only [exec, execAdd, src]; exact succeed_congr hf hs _ _
  | addm rd ra rb => simp only [exec, execAddm, src]; exact succeed_congr hf hs _ _
  | subm rd ra rb => simp only [exec, execSubm, src]; exact succeed_congr hf hs _ _
  | mulm rd ra rb => simp only [exec, execMulm, src]; exact succeed_congr hf hs _ _
  | sqrm rd ra => simp only [exec, execSqrm, src]; exact succeed_congr hf hs _ _
  | inv rd ra =>
    simp only [exec, execInv_eq, src]
    exact succeed_congr (exp _).1 (exp _).2 _ _
  | sqrt rd ra =>
    simp only [exec, execSqrt_eq, src]
    exact succeed_congr (exp _).1 (exp _).2 _ _
  | red rd ra => simp only [exec, execRed, src]; exact succeed_congr hf hs _ _
  | mov rd ra => simp only [exec, execMov, src]; exact succeed_congr hf hs _ _
  | cswap rd ra rb => simp only [exec, execCswap, src]; exact succeed_congr hf hs _ _
  | ldk rd k =>
    simp only [exec, execLdk]
    cases krom k with
    | none => exact failWith_congr hf hs _
    | some v => exact succeed_congr hf hs _ _
  | clamp rd ra => simp only [exec, execClamp, src]; exact succeed_congr hf hs _ _
  | lstep rd ra rb =>
    simp only [exec, execLstep, src]
    cases isPairBase rd && isPairBase ra
    · exact failWith_congr hf hs _
    · exact succeed_congr hf hs _ _
  | ladder rd ra rb =>
    simp only [exec, execLadder_eq, src, srcU]
    refine succeed_congr ?_ ?_ _ _
    · rw [State.setExp_f, State.setExp_f, State.setLadder_f, State.setLadder_f, hf]
    · rw [State.setExp_status, State.setExp_status, State.setLadder_status, State.setLadder_status, hs]
  | edadd rd ra rb =>
    simp only [exec, execEdadd, quad]
    cases isQuadBase rd && isQuadBase ra && isQuadBase rb
    · exact failWith_congr hf hs _
    · exact succeed_congr hf hs _ _
  | eddbl rd ra =>
    simp only [exec, execEddbl, quad]
    cases isQuadBase rd && isQuadBase ra
    · exact failWith_congr hf hs _
    · exact succeed_congr hf hs _ _
  | edenc rd ra =>
    cases h : isQuadBase ra
    · simp only [exec, execEdenc, h]; exact failWith_congr hf hs _
    · simp only [exec, execEdenc_eq _ _ _ h, quad]
      exact succeed_congr (exp _).1 (exp _).2 _ _
  | eddec rd ra =>
    simp only [exec, execEddec, src]
    cases isQuadBase rd
    · exact failWith_congr hf hs _
    · cases decPoint (s'.src ra) with
      | none => exact failWith_congr hf hs _
      | some q => exact succeed_congr hf hs _ _
  | edchk ra => simp only [exec, execEdchk, src]; exact succeed_congr hf hs _ _

/-- A well-formed command other than EDDEC never fails, and EDDEC fails with NOT_ON_CURVE only (R233). -/
theorem exec_wellFormed_err {i : Instr} (h : i.wellFormed = true) {s t : State}
    (hs : s.status.err = false) (ht : exec i s = .next t) :
    (t.status.err = false ∧ t.status.errcode = s.status.errcode) ∨
      ((∃ rd ra, i = .eddec rd ra) ∧ t.status.errcode = CmdError.notOnCurve.code) := by
  have ok {s' : State} {ws fl} (e : exec i s = succeed s' ws fl) (hst : s'.status = s.status)
      (hfl : fl = Status.keep ∨ (∃ b, fl = Status.setCarry b) ∨ (∃ b, fl = Status.setNoroot b) ∨
        (∃ b, fl = Status.setOncurve b)) :
      t.status.err = false ∧ t.status.errcode = s.status.errcode := by
    obtain ⟨u, hu, -, -, hus⟩ := succeed_spec s' ws fl
    rw [e, hu] at ht
    injection ht with ht
    rw [← ht, hus, hst]
    rcases hfl with rfl | ⟨b, rfl⟩ | ⟨b, rfl⟩ | ⟨b, rfl⟩ <;> exact ⟨by simpa using hs, by simp⟩
  cases i with
  | ldk rd k =>
    have hk : k.val < kromTable.length := by
      simp only [Instr.wellFormed, decide_eq_true_eq] at h
      simp only [kromTable, List.length_cons, List.length_nil]
      omega
    exact .inl (ok (ws := [(rd, kromTable[k.val])]) (fl := Status.keep)
      (by simp only [exec, execLdk, krom, List.getElem?_eq_getElem hk]) rfl (.inl rfl))
  | lstep rd ra rb => exact .inl (ok (if_pos h) rfl (.inl rfl))
  | edadd rd ra rb => exact .inl (ok (if_pos h) rfl (.inl rfl))
  | eddbl rd ra => exact .inl (ok (if_pos h) rfl (.inl rfl))
  | edenc rd ra => exact .inl (ok (execEdenc_eq rd ra s h) (State.setExp_status _ _) (.inl rfl))
  | eddec rd ra =>
    cases hd : decPoint (s.src ra) with
    | some q =>
      exact .inl (ok (ws := quadWrites rd q) (fl := Status.keep)
        (by simp only [exec, execEddec, show isQuadBase rd = true from h, hd, if_true]) rfl (.inl rfl))
    | none =>
      obtain ⟨u, hu, -, -, hus⟩ := failWith_spec s .notOnCurve
      have e : exec (.eddec rd ra) s = failWith s .notOnCurve := by
        simp only [exec, execEddec, show isQuadBase rd = true from h, hd, if_true]
      rw [e, hu] at ht
      injection ht with ht
      exact .inr ⟨⟨rd, ra, rfl⟩, by rw [← ht, hus]⟩
  | nop => exact .inl (ok rfl rfl (.inl rfl))
  | add rd ra rb => exact .inl (ok rfl rfl (.inr (.inl ⟨_, rfl⟩)))
  | addm rd ra rb => exact .inl (ok rfl rfl (.inl rfl))
  | subm rd ra rb => exact .inl (ok rfl rfl (.inl rfl))
  | mulm rd ra rb => exact .inl (ok rfl rfl (.inl rfl))
  | sqrm rd ra => exact .inl (ok rfl rfl (.inl rfl))
  | inv rd ra => exact .inl (ok (execInv_eq rd ra s) (State.setExp_status _ _) (.inl rfl))
  | sqrt rd ra =>
    exact .inl (ok (execSqrt_eq rd ra s) (State.setExp_status _ _) (.inr (.inr (.inl ⟨_, rfl⟩))))
  | red rd ra => exact .inl (ok rfl rfl (.inl rfl))
  | mov rd ra => exact .inl (ok rfl rfl (.inl rfl))
  | cswap rd ra rb => exact .inl (ok rfl rfl (.inl rfl))
  | clamp rd ra => exact .inl (ok rfl rfl (.inl rfl))
  | ladder rd ra rb =>
    exact .inl (ok (execLadder_eq rd ra rb s)
      ((State.setExp_status _ _).trans (State.setLadder_status _ _)) (.inl rfl))
  | edchk ra => exact .inl (ok rfl rfl (.inr (.inr (.inr ⟨_, rfl⟩))))

/-! ### Bus writes (R62, R66, R70) -/

/-- All that a bus write can be. -/
theorem busWrite_cases (s : State) (addr : BusAddr) (v : Word) :
    busWrite s addr v = s ∨
    (s.status.busy = true ∧ busWrite s addr v = s.dropWrite) ∨
    busWrite s addr v = s.setStatus (s.status.writeOneToClear v) ∨
    (s.status.busy = false ∧
      (busWrite s addr v = s.setCtrl (Ctrl.ofWord v) ∨ busWrite s addr v = s.accept v ∨
        ∃ n w, busWrite s addr v = s.writeReg n (replaceWord s.f[n.val] w v))) := by
  unfold busWrite
  cases windowReg addr with
  | id => exact .inl rfl
  | version => exact .inl rfl
  | ctrl =>
    cases h : s.status.busy
    · exact .inr (.inr (.inr ⟨rfl, .inl rfl⟩))
    · exact .inr (.inl ⟨rfl, rfl⟩)
  | status => exact .inr (.inr (.inl rfl))
  | cmd =>
    cases h : s.status.busy
    · exact .inr (.inr (.inr ⟨rfl, .inr (.inl rfl)⟩))
    · exact .inr (.inl ⟨rfl, rfl⟩)
  | reserved => exact .inl rfl
  | field n w =>
    cases h : s.status.busy
    · exact .inr (.inr (.inr ⟨rfl, .inr (.inr ⟨n, w, rfl⟩)⟩))
    · exact .inr (.inl ⟨rfl, rfl⟩)

/-! ### The engine and the cycle (R241, R280) -/

/-- The completion procedure: a decode error fails, a decoded command runs. -/
theorem complete_cases (s : State) :
    (∃ c, decode s.snap.cmd = .error c ∧ complete s = failWith s c) ∨
    ∃ i, decode s.snap.cmd = .ok i ∧ complete s = exec i s := by
  unfold complete
  split
  · exact .inl ⟨_, ‹_›, rfl⟩
  · exact .inr ⟨_, ‹_›, rfl⟩

/-- The completion procedure answers a next state with BUSY 0 and DONE 1, and OVR as before. -/
theorem complete_completes (s : State) :
    ∃ t, complete s = .next t ∧ CompletionFrame s t ∧ t.status.busy = false ∧ t.status.done = true ∧
      t.status.ovr = s.status.ovr := by
  rcases complete_cases s with ⟨c, -, h⟩ | ⟨i, -, h⟩
  · obtain ⟨t, ht, hframe, -, hs⟩ := failWith_spec s c
    exact ⟨t, h.trans ht, hframe, by simp [hs], by simp [hs], by simp [hs]⟩
  · obtain ⟨t, ht, hframe, hb, hd, ho, -⟩ := exec_completes i s
    exact ⟨t, h.trans ht, hframe, hb, hd, ho⟩

/-- The completion procedure computes from the snapshot, the registers and STATUS alone. -/
theorem complete_congr {s s' : State} (hsnap : s.snap = s'.snap) (hf : s.f = s'.f)
    (hs : s.status = s'.status) :
    ∃ t t', complete s = .next t ∧ complete s' = .next t' ∧ t.f = t'.f ∧ t.status = t'.status := by
  rcases complete_cases s with ⟨c, hd, hc⟩ | ⟨i, hd, hc⟩
  · rw [hc, complete, ← hsnap, hd]
    exact failWith_congr hf hs c
  · rw [hc, complete, ← hsnap, hd]
    exact exec_congr i hsnap hf hs

/-- Two completions that agree in the registers and STATUS, from states alike in the timeless model, are alike
in it (R289). -/
theorem CompletionFrame.untimed_eq {s s' t t' : State} (h : CompletionFrame s t)
    (h' : CompletionFrame s' t') (hf : t.f = t'.f) (hs : t.status = t'.status)
    (hu : untimed s = untimed s') : untimed t = untimed t' := by
  cases t; cases t'
  obtain ⟨a1, a2, a3, a4, a5, a6, a7, a8, a9, a10, a11⟩ := h
  obtain ⟨b1, b2, b3, b4, b5, b6, b7, b8, b9, b10, b11⟩ := h'
  simp only at *
  subst a1 a2 a3 a4 a5 a6 a7 a8 a9 a10 a11 b1 b2 b3 b4 b5 b6 b7 b8 b9 b10 b11
  simp only [untimed, State.mk.injEq] at hu ⊢
  simp_all

/-- A bus transaction does not look at what the timeless model leaves out (R289). -/
theorem busEdge_untimed (req : BusReq) {s s' : State} (h : untimed s = untimed s') :
    untimed (busEdge req s) = untimed (busEdge req s') := by
  cases s; cases s'
  simp only [untimed, State.mk.injEq] at h
  obtain ⟨rfl, rfl, rfl, rfl, rfl, rfl, rfl, -, rfl, -, -, rfl, rfl⟩ := h
  cases req with
  | idle => rfl
  | read a => rfl
  | write a v =>
    simp only [busEdge, busWrite]
    cases windowReg a <;> (try rfl) <;> simp only <;> split <;> rfl

/-- A bus transaction while a command runs leaves the command running and its counter as it is (R70). -/
theorem busEdge_busy (req : BusReq) {s : State} (h : s.status.busy = true) :
    (busEdge req s).cycles = s.cycles ∧ (busEdge req s).status.busy = true := by
  cases req with
  | idle => exact ⟨rfl, h⟩
  | read a => exact ⟨rfl, h⟩
  | write a v =>
    simp only [busEdge]
    rcases busWrite_cases s a v with e | ⟨-, e⟩ | e | ⟨hb, -⟩
    · rw [e]; exact ⟨rfl, h⟩
    · rw [e]; exact ⟨rfl, h⟩
    · rw [e]; exact ⟨rfl, h⟩
    · simp [h] at hb

/-- Every latency is at least 1 (R9). -/
theorem latencyOf_pos (w : Word) : 1 ≤ latencyOf w := by
  unfold latencyOf
  split <;> simp [Config.errLatency, Config.latency]

/-- All that the engine does at an edge. -/
theorem engineEdge_cases (s : State) :
    (s.status.busy = false ∧ engineEdge s = .next s) ∨
    (s.status.busy = true ∧ 1 < s.cycles ∧ engineEdge s = .next s.tick) ∨
    (s.status.busy = true ∧ s.cycles ≤ 1 ∧ engineEdge s = complete s) := by
  unfold engineEdge
  cases h : s.status.busy
  · exact .inl ⟨rfl, rfl⟩
  · by_cases hc : s.cycles ≤ 1
    · exact .inr (.inr ⟨rfl, hc, by simp [hc]⟩)
    · exact .inr (.inl ⟨rfl, by omega, by simp [hc]⟩)

/-- One step: a stopped clock, a power-on, a reset edge, or the engine's edge and then the bus's. -/
theorem step_cases (s : State) :
    (s.nextInput = .clockStopped ∧ step s = .next s.popInput) ∨
    (s.nextInput = .powerCycle ∧ step s = .next s.powerOn) ∨
    (∃ pins, s.nextInput = .cycle pins ∧ pins.rstN = false ∧
      step s = .next (s.beginCycle pins).resetEdge) ∨
    ∃ pins, s.nextInput = .cycle pins ∧ pins.rstN = true ∧
      ∀ t, engineEdge (s.beginCycle pins) = .next t → step s = .next (busEdge pins.bus t) := by
  unfold step eventStep
  cases h : s.nextInput with
  | clockStopped => exact .inl ⟨rfl, rfl⟩
  | powerCycle => exact .inr (.inl ⟨rfl, rfl⟩)
  | cycle pins =>
    cases hr : pins.rstN
    · exact .inr (.inr (.inl ⟨pins, rfl, hr, by simp [cycleStep, hr]⟩))
    · refine .inr (.inr (.inr ⟨pins, rfl, hr, fun t ht => ?_⟩))
      simp [cycleStep, hr, ht]

/-- A run of one step more ends with a step of the state it has reached. -/
theorem run_succ_of_run {s t : State} {n : Nat} (h : Sys2Proof.core.run n s = .next t) :
    Sys2Proof.core.run (n + 1) s = step t := by
  induction n generalizing s with
  | zero =>
    obtain rfl : s = t := by injection h
    simp only [Host.Core.run]
    cases hs : Sys2Proof.core.step s <;> exact hs.symm
  | succ n ih =>
    simp only [Host.Core.run] at h ⊢
    split at h
    · exact ih h
    · cases h
    · cases h

end Sys2Proof.Machine
end

