-- ==== Sys2Proof/Laws/PerInstr.lean ====
section
/-! SUPPORT. Statements made for each command: the opcode and the reserved field of its encoding. -/

namespace Sys2Proof.Laws.OpcodeField

/-- The word of a command holds its opcode in bits 5:0 and zero in bits 31:21 (R91, R93, R94). -/
def Statement (i : Instr) : Prop := opField (encode i) = i.opcode ∧ resField (encode i) = 0

theorem of_fields {i : Instr} {rd ra rb : RegIx} (h : encode i = encodeFields i.opcode rd ra rb) :
    Statement i := by
  rw [Statement, h]
  exact ⟨opField_encodeFields _ _ _ _, resField_encodeFields _ _ _ _⟩

theorem nop : Statement .nop := of_fields rfl

theorem add (rd ra rb : RegIx) : Statement (.add rd ra rb) := of_fields rfl

theorem addm (rd ra rb : RegIx) : Statement (.addm rd ra rb) := of_fields rfl

theorem subm (rd ra rb : RegIx) : Statement (.subm rd ra rb) := of_fields rfl

theorem mulm (rd ra rb : RegIx) : Statement (.mulm rd ra rb) := of_fields rfl

theorem sqrm (rd ra : RegIx) : Statement (.sqrm rd ra) := of_fields rfl

theorem inv (rd ra : RegIx) : Statement (.inv rd ra) := of_fields rfl

theorem sqrt (rd ra : RegIx) : Statement (.sqrt rd ra) := of_fields rfl

theorem red (rd ra : RegIx) : Statement (.red rd ra) := of_fields rfl

theorem mov (rd ra : RegIx) : Statement (.mov rd ra) := of_fields rfl

theorem cswap (rd ra rb : RegIx) : Statement (.cswap rd ra rb) := of_fields rfl

theorem ldk (rd k : RegIx) : Statement (.ldk rd k) := of_fields rfl

theorem clamp (rd ra : RegIx) : Statement (.clamp rd ra) := of_fields rfl

theorem lstep (rd ra rb : RegIx) : Statement (.lstep rd ra rb) := of_fields rfl

theorem ladder (rd ra rb : RegIx) : Statement (.ladder rd ra rb) := of_fields rfl

theorem edadd (rd ra rb : RegIx) : Statement (.edadd rd ra rb) := of_fields rfl

theorem eddbl (rd ra : RegIx) : Statement (.eddbl rd ra) := of_fields rfl

theorem edenc (rd ra : RegIx) : Statement (.edenc rd ra) := of_fields rfl

theorem eddec (rd ra : RegIx) : Statement (.eddec rd ra) := of_fields rfl

theorem edchk (ra : RegIx) : Statement (.edchk ra) := of_fields rfl

end Sys2Proof.Laws.OpcodeField
end

