-- ==== Sys2Proof/Tests/Slice0.lean ====
section
/-! SUPPORT. Tests of the model against the spec's own words, tables and vectors (30_encoding R100,
95_test_vectors sections 3 and 4), and a witness for every statement that has hypotheses. -/

namespace Sys2Proof.Tests

set_option Elab.async false

open Sys2Proof Sys2Proof.Machine Sys2Proof.Safety Sys2Proof.Claims

/-! ### Ill-formed terms are refused (R92) -/

theorem test_illFormed_ldk : (Instr.ldk 0 13).wellFormed = false := by decide

theorem test_illFormed_lstep :
    (Instr.lstep 5 6 1).wellFormed = false ∧ (Instr.lstep 4 7 1).wellFormed = false := by decide

theorem test_illFormed_edadd :
    (Instr.edadd 1 0 4).wellFormed = false ∧ (Instr.edadd 8 2 4).wellFormed = false ∧
      (Instr.edadd 8 0 7).wellFormed = false := by decide

theorem test_illFormed_eddbl :
    (Instr.eddbl 1 4).wellFormed = false ∧ (Instr.eddbl 4 30).wellFormed = false := by decide

theorem test_illFormed_edenc : (Instr.edenc 8 6).wellFormed = false := by decide

theorem test_illFormed_eddec : (Instr.eddec 2 0).wellFormed = false := by decide

/-! ### Decoding: words written out as res, rb, ra, rd, op from R90 and R94 -/

theorem test_decode_nop : decode 0b00000000000_00000_00000_00000_000000#32 = .ok .nop := by decide

theorem test_decode_add : decode 0b00000000000_10101_11111_00011_000001#32 = .ok (.add 3 31 21) := by
  decide

theorem test_decode_addm : decode 0b00000000000_00010_00001_00011_000010#32 = .ok (.addm 3 1 2) := by
  decide

theorem test_decode_subm : decode 0b00000000000_00010_00001_00011_000011#32 = .ok (.subm 3 1 2) := by
  decide

theorem test_decode_mulm : decode 0b00000000000_00010_00001_00011_000100#32 = .ok (.mulm 3 1 2) := by
  decide

theorem test_decode_sqrm : decode 0b00000000000_00000_10001_01011_000101#32 = .ok (.sqrm 11 17) := by
  decide

theorem test_decode_inv : decode 0b00000000000_00000_00001_00011_000110#32 = .ok (.inv 3 1) := by
  decide

theorem test_decode_sqrt : decode 0b00000000000_00000_00001_00011_000111#32 = .ok (.sqrt 3 1) := by
  decide

theorem test_decode_red : decode 0b00000000000_00000_00001_00011_001000#32 = .ok (.red 3 1) := by
  decide

theorem test_decode_mov : decode 0b00000000000_00000_00001_00011_001001#32 = .ok (.mov 3 1) := by
  decide

theorem test_decode_cswap : decode 0b00000000000_00010_00001_00011_001010#32 = .ok (.cswap 3 1 2) := by
  decide

theorem test_decode_ldk : decode 0b00000000000_00000_01100_11111_001011#32 = .ok (.ldk 31 12) := by
  decide

theorem test_decode_clamp : decode 0b00000000000_00000_00001_00010_010000#32 = .ok (.clamp 2 1) := by
  decide

theorem test_decode_lstep : decode 0b00000000000_00001_00110_00100_010001#32 = .ok (.lstep 4 6 1) := by
  decide

theorem test_decode_ladder :
    decode 0b00000000000_00010_00001_00011_010010#32 = .ok (.ladder 3 1 2) := by decide

theorem test_decode_edadd :
    decode 0b00000000000_00100_00000_01000_100000#32 = .ok (.edadd 8 0 4) := by decide

theorem test_decode_eddbl : decode 0b00000000000_00000_00100_11100_100001#32 = .ok (.eddbl 28 4) := by
  decide

theorem test_decode_edenc : decode 0b00000000000_00000_00100_01001_110000#32 = .ok (.edenc 9 4) := by
  decide

theorem test_decode_eddec : decode 0b00000000000_00000_00011_00100_110001#32 = .ok (.eddec 4 3) := by
  decide

theorem test_decode_edchk : decode 0b00000000000_00000_00101_00000_110010#32 = .ok (.edchk 5) := by
  decide

/-- The ends of the four undefined ranges of R95, the last with every other field used. -/
theorem test_decode_undefined :
    [0x0000000C#32, 0x0000000F#32, 0x00000013#32, 0x0000001F#32, 0x00000022#32, 0x0000002F#32,
      0x00000033#32, 0x0000003F#32, 0xFFFFFFFF#32].map decode =
      List.replicate 9 (.error .illegalOpcode) := by decide

/-- X3, X4, X8 and X10 of 95_test_vectors. -/
theorem test_decode_reserved :
    [0x00200000#32, 0x00012061#32, 0x00000072#32, 0x80000001#32].map decode =
      List.replicate 4 (.error .reservedField) := by decide

/-- X5, X6 and X7 of 95_test_vectors. -/
theorem test_decode_badOperand :
    [0x00013151#32, 0x0000680B#32, 0x00040060#32].map decode =
      List.replicate 3 (.error .badOperand) := by decide

/-! ### One step on a small state -/

/-- The reset state with some field registers loaded. -/
def loaded (l : List (RegIx × FVal)) : State := State.reset.writeRegs l

/-- The next state of an outcome. -/
def nextOf : Host.Outcome State Fault Refusal → Option State
  | .next t => some t
  | .fault _ => none
  | .refused _ => none

theorem exists_next {o : Host.Outcome State Fault Refusal} (h : (nextOf o).isSome = true) :
    ∃ t, o = .next t := by
  cases o with
  | next t => exact ⟨t, rfl⟩
  | fault r => cases h
  | refused r => cases h

/-- The state after one step that completes a command word, from reset with some registers loaded. -/
def ran (w : Nat) (l : List (RegIx × FVal)) : State :=
  match step ((loaded l).withFetchWord 32 w) with
  | .next t => t
  | .fault _ => State.reset
  | .refused _ => State.reset

/-- f[i] after a command, with STATUS as the bus reads it. -/
def result (w : Nat) (l : List (RegIx × FVal)) (i : RegIx) : Nat × Nat :=
  ((ran w l).f[i.val].toNat, (ran w l).status.toWord.toNat)

/-- The quad at base i after a command. -/
def quadOf (w : Nat) (l : List (RegIx × FVal)) (i : RegIx) : List Nat :=
  [i, i + 1, i + 2, i + 3].map fun j => (ran w l).f[j.val].toNat

/-- 2^256 − 1. -/
def M : FVal := BitVec.allOnes 256

/-- p = 2^255 − 19 (R8). -/
def p : FVal := BitVec.ofNat 256 (2 ^ 255 - 19)

/-- The base point of R15 at quad i. -/
def baseAt (i : RegIx) : List (RegIx × FVal) :=
  [(i, 0x216936d3cd6e53fec0a4e231fdd6dc5c692cc7609525a7b2c9562d608f25d51a#256),
    (i + 1, 0x6666666666666666666666666666666666666666666666666666666666666658#256), (i + 2, 1),
    (i + 3, 0x67875f0fd78b766566ea4e8e64abe37d20f09f80775152f56dde8ab3a5b7dda3#256)]

/-- F41. -/
theorem test_nop : result 0x00000000 [(0, 7)] 0 = (7, 0x002) := by decide +kernel

/-- F1. -/
theorem test_add_carry : result 0x000208C1 [(1, M), (2, 1)] 3 = (0, 0x012) := by decide +kernel

/-- F2. -/
theorem test_add_not_reduced : result 0x000208C1 [(1, p), (2, 0x13)] 3 = (2 ^ 255, 0x002) := by
  decide +kernel

/-- F5. -/
theorem test_addm : result 0x000208C2 [(1, M), (2, M)] 3 = (0x4a, 0x002) := by decide +kernel

/-- F7. -/
theorem test_subm_negative : result 0x000208C3 [(1, 0), (2, 1)] 3 = (2 ^ 255 - 20, 0x002) := by
  decide +kernel

/-- F9. -/
theorem test_subm_large : result 0x000208C3 [(1, 0), (2, M)] 3 = (2 ^ 255 - 19 - 37, 0x002) := by
  decide +kernel

/-- F12. -/
theorem test_mulm : result 0x000208C4 [(1, M), (2, M)] 3 = (0x559, 0x002) := by decide +kernel

/-- F40: the source is the destination. -/
theorem test_mulm_in_place : result 0x00010844 [(1, 3)] 1 = (9, 0x002) := by decide +kernel

/-- F17. -/
theorem test_sqrm : result 0x000008C5 [(1, BitVec.ofNat 256 (2 ^ 128))] 3 = (0x26, 0x002) := by
  decide +kernel

/-- F20. -/
theorem test_inv : result 0x000008C6 [(1, 2)] 3 =
    (0x3ffffffffffffffffffffffffffffffffffffffffffffffffffffffffffffff7, 0x002) := by decide +kernel

/-- F21. -/
theorem test_inv_zero : result 0x000008C6 [(1, p), (3, 5)] 3 = (0, 0x002) := by decide +kernel

/-- F25: the root the exponentiation yields, not the even one. -/
theorem test_sqrt_of_four : result 0x000008C7 [(1, 4)] 3 = (2 ^ 255 - 21, 0x002) := by decide +kernel

/-- F27. -/
theorem test_sqrt_none : result 0x000008C7 [(1, 2), (3, 5)] 3 = (0, 0x022) := by decide +kernel

/-- F33. -/
theorem test_red : result 0x000008C8 [(1, BitVec.ofNat 256 (2 * (2 ^ 255 - 19)))] 3 = (0, 0x002) := by
  decide +kernel

/-- F34. -/
theorem test_mov : result 0x000008C9 [(1, M)] 3 = (2 ^ 256 - 1, 0x002) := by decide +kernel

/-- F35. -/
theorem test_cswap : result 0x000208CA [(1, 5), (2, 1), (3, 7)] 3 = (5, 0x002) ∧
    (result 0x000208CA [(1, 5), (2, 1), (3, 7)] 1).1 = 7 := by decide +kernel

/-- F37: the condition is read from the snapshot. -/
theorem test_cswap_condition : (result 0x000308CA [(1, 5), (3, 1)] 3).1 = 5 ∧
    (result 0x000308CA [(1, 5), (3, 1)] 1).1 = 1 := by decide +kernel

/-- F38. -/
theorem test_ldk : result 0x0000410B [] 4 =
    (0x216936d3cd6e53fec0a4e231fdd6dc5c692cc7609525a7b2c9562d608f25d51a, 0x002) := by decide +kernel

/-- M2. -/
theorem test_clamp : result 0x00000850 [(1, M)] 1 = (2 ^ 255 - 8, 0x002) := by decide +kernel

/-- M4. -/
theorem test_lstep :
    quadOf 0x00013111 [(4, 9), (5, 1), (6, 1), (1, 9)] 4 = [0x1900, 0x9660720, 0x144, 0x24] := by
  decide +kernel

/-- M8. -/
theorem test_ladder : result 0x000208D2 [(1, 3), (2, 9)] 3 =
    (0x1c12bc1a6d57abe645534d91c21bba64f8824e67621c0859c00a03affb713c12, 0x002) := by decide +kernel

/-- M14: UMASK is 1 after reset, so bit 255 of u is cleared. -/
theorem test_ladder_umask :
    result 0x000208D2 [(1, BitVec.ofNat 256 (2 ^ 254)), (2, BitVec.ofNat 256 (2 ^ 255 + 9))] 3 =
      (0x743bcb585f9990edc2cfc4af84f6ff300729bb5facda28154362cd47a37de52f, 0x002) := by decide +kernel

/-- E1. -/
theorem test_edadd : quadOf 0x00040220 (baseAt 0 ++ baseAt 4) 8 =
    [0x3b6f8891960f6ad45776d1e1213c1bd9de44f888163a76921515e6cf9f3fd67e,
      0x336d9ece4cdb30925921f40f14dab827d6e156675107378db6d34c9a874a007e,
      0x59e4ea1a52a20ea2fd9cb81712f675b450b27bff31b598ba722d5b0bf61c8608,
      0x1f6e08da2d298daafc6ea6fedd5e07c172749500483d139bc532c7e392cad989] := by decide +kernel

/-- E2, in place. -/
theorem test_eddbl : quadOf 0x00002121 (baseAt 4) 4 =
    [0x31241ddb9a7c254aea224b87b7b0f909886ec1ddfa71625b7aba864c18300a57,
      0x3324984c6cc933db69b782fc3ac951f60a47aa662bbe321c924b2cd95e2d7fd7,
      0x6986c5796b577c574098d1fa3b426292ebd36100339299d16374a93d0278de6b,
      0x18247dc974b59c9540e4564048a87e0fa362dabfedf0bb190eb34e071b4d4999] := by decide +kernel

/-- V14. -/
theorem test_edenc : result 0x00002230 (baseAt 4) 8 =
    (0x6666666666666666666666666666666666666666666666666666666666666658, 0x002) := by decide +kernel

/-- V16: Z ≡ 0 gives 0. -/
theorem test_edenc_z_zero : result 0x00002230 [(4, 5), (5, 7), (8, 3)] 8 = (0, 0x002) := by
  decide +kernel

/-- V10: the sign bit picks the odd root. -/
theorem test_eddec : quadOf 0x00000131
    [(0, 0xe666666666666666666666666666666666666666666666666666666666666658#256)] 4 =
    [0x5e96c92c3291ac013f5b1dce022923a396d3389f6ada584d36a9d29f70da2ad3,
      0x6666666666666666666666666666666666666666666666666666666666666658, 1,
      0x1878a0f02874899a9915b1719b541c82df0f607f88aead0a9221754c5a48224a] := by decide +kernel

/-- V3: x = 0 with sign 1 is NOT_ON_CURVE, and nothing is written. -/
theorem test_eddec_rejects :
    result 0x00000131 [(0, BitVec.ofNat 256 (2 ^ 255 + 1)), (4, 77)] 4 = (77, 0x406) := by
  decide +kernel

/-- V13 on V9. -/
theorem test_edchk_valid : result 0x00000032 [(0, p - 1)] 0 = (2 ^ 255 - 20, 0x042) := by
  decide +kernel

/-- V13 on V5: an invalid encoding is no error. -/
theorem test_edchk_invalid : result 0x00000032 [(0, 2)] 0 = (2, 0x002) := by decide +kernel

/-- X1, X3 and X6: how STATUS reports a word that does not decode. The words are placed as they are. -/
theorem test_decode_errors_in_status :
    (result 0x0000000C [] 0).2 = 0x106 ∧ (result 0x00200000 [] 0).2 = 0x206 ∧
      (result 0x0000680B [] 0).2 = 0x306 := by decide +kernel

/-- R99: LDBASE loads the base point; the expansion's words are those of program P4. -/
theorem test_ldbase : (pseudoLdbase 4).map encode =
    [0x0000410B#32, 0x0000494B#32, 0x0000098B#32, 0x000051CB#32] := by decide

/-! ### The bus (B1 to B12) -/

/-- A state in which MULM f3, f1, f2 has been accepted and completes at the given edge. -/
def busyFor (n : Nat) : State := (loaded [(1, 5), (2, 7)]).acceptFor 0x000208C4#32 n

/-- A state that has just completed MULM f3, f1, f2, with the interrupt enabled. -/
def doneState : State :=
  { loaded [(1, 5), (3, 35)] with
    ctrl := { irqEn := true, umask := true }
    status := Status.reset.finished
    lastCmd := 0x000208C4#32 }

/-- The state after one step on some events. -/
def stepOn (s : State) (l : List Input) : State :=
  match step { s with inputs := l } with
  | .next t => t
  | .fault _ => State.reset
  | .refused _ => State.reset

/-- B1, B2 and B5. -/
theorem test_bus_reset_reads :
    memRead State.reset 0x000#12 = 0x4A443235#32 ∧ memRead State.reset 0x004#12 = 0x00010000#32 ∧
      memRead State.reset 0x008#12 = 0x00000002#32 ∧ memRead State.reset 0x014#12 = 0 ∧
      memRead State.reset 0xFFC#12 = 0 := by decide

/-- B3. -/
theorem test_bus_field_write :
    (stepOn State.reset [hostW 0x420#12 0x12345678#32]).f[1] = 0x12345678#256 := by decide +kernel

/-- B4, on the last word: it lies at the top of the register. -/
theorem test_bus_byte_order :
    (stepOn State.reset [hostW 0x41C#12 0x201f1e1d#32]).f[0].toNat = 0x201f1e1d * 2 ^ 224 := by
  decide +kernel

/-- B6. -/
theorem test_bus_busy_read : (stepOn (busyFor 3) [hostR 0x420#12]).rdata = some 0 := by decide +kernel

/-- B7 and B8. -/
theorem test_bus_busy_write :
    (stepOn (busyFor 3) [hostW 0x420#12 7#32]).status.ovr = true ∧
      (stepOn (busyFor 3) [hostW 0x010#12 0#32]).lastCmd = 0x000208C4#32 := by decide +kernel

/-- R241: a CTRL write on the completion edge is performed, and one before it is dropped (R70). -/
theorem test_bus_ctrl_write :
    (stepOn (busyFor 1) [hostW 0x008#12 1#32]).ctrl = { irqEn := true, umask := false } ∧
      (stepOn (busyFor 3) [hostW 0x008#12 1#32]).ctrl = { irqEn := false, umask := true } := by
  decide +kernel

/-- B9. -/
theorem test_bus_clear_ovr :
    (stepOn (busyFor 3).dropWrite [hostW 0x00C#12 8#32]).status.ovr = false := by decide +kernel

/-- B10 and B11. -/
theorem test_bus_irq :
    doneState.irq = true ∧ (stepOn doneState [hostW 0x00C#12 2#32]).irq = false := by decide +kernel

/-- B12. -/
theorem test_bus_reset :
    stepOn (busyFor 3) [hostReset] = State.reset := by decide +kernel

/-! ### Witnesses: states and operands that meet the hypotheses of the statements -/

theorem witness_DecodeEncode :
    (Instr.lstep 30 30 31).wellFormed = true ∧ (Instr.ldk 31 12).wellFormed = true ∧
      (Instr.edadd 28 0 28).wellFormed = true := by decide

theorem witness_EncodeDecode : decode 0x0000FFC1#32 = .ok (.add 31 31 0) := by decide

/-- The rows of R63 at their ends. -/
theorem witness_AddressMap :
    windowReg (wordAddr 0x010#12) = .cmd ∧ windowReg (wordAddr 0x014#12) = .reserved ∧
      windowReg (wordAddr 0x3FC#12) = .reserved ∧ windowReg (wordAddr 0x400#12) = .field 0 0 ∧
      windowReg (wordAddr 0x7FC#12) = .field 31 7 ∧ windowReg (wordAddr 0x800#12) = .reserved ∧
      windowReg (wordAddr 0xFFC#12) = .reserved := by decide

theorem witness_ReservedAddresses :
    (0x014 ≤ 4 * (wordAddr 0x014#12).toNat ∧ 4 * (wordAddr 0x3FC#12).toNat ≤ 0x3FC) ∧
      0x800 ≤ 4 * (wordAddr 0x800#12).toNat ∧ 0x800 ≤ 4 * (wordAddr 0xFFC#12).toNat := by decide

/-- An idle state, for CtrlAccess, CommandAcceptance, FieldWindow, ByteLanes and InterruptLevel. -/
theorem witness_idle : doneState.status.busy = false := by decide

/-- A busy state, for CommandAcceptance, BusyAccess and InterruptLevel. -/
theorem witness_busy : (busyFor 3).status.busy = true := by decide

theorem witness_InterruptLevel :
    (2#32).getLsbD 1 = true ∧ (2#32).getLsbD 0 = false ∧ windowReg (wordAddr 0x420#12) ≠ .status ∧
      ∃ t, complete (busyFor 1) = .next t :=
  ⟨by decide, by decide, by decide, exists_next (by decide +kernel)⟩

theorem witness_StepRunsDecodedCommand :
    (busyFor 1).nextInput = .cycle { rstN := true, bus := .idle } ∧ (busyFor 1).status.busy = true ∧
      (busyFor 1).cycles ≤ 1 ∧ decode (busyFor 1).snap.cmd = .ok (.mulm 3 1 2) ∧
      ∃ t, exec (.mulm 3 1 2) ((busyFor 1).beginCycle { rstN := true, bus := .idle }) = .next t :=
  ⟨by decide, by decide, by decide, by decide, exists_next (by decide +kernel)⟩

/-- The cycles that are no completion edge: an idle unit and a running command, with no transaction, a read
and a write. -/
theorem witness_StepServesTheBus :
    (doneState.nextInput = .cycle { rstN := true, bus := .idle } ∧ doneState.status.busy = false) ∧
      ({ doneState with inputs := [hostW 0x420#12 7#32] }).nextInput =
        .cycle { rstN := true, bus := .write (wordAddr 0x420#12) 7#32 } ∧
      1 < (busyFor 2).cycles ∧
      ({ busyFor 2 with inputs := [hostR 0x00C#12] }).nextInput =
        .cycle { rstN := true, bus := .read (wordAddr 0x00C#12) } := by decide

theorem witness_DecodeErrorPrecise :
    decode (State.reset.acceptFor 0x0000680B#32 1).snap.cmd = .error .badOperand := by decide

theorem witness_CompletionBeforeBusWrite :
    ({ busyFor 1 with inputs := [hostR 0x00C#12] }).inputs =
        .cycle { rstN := true, bus := .read 3 } :: [] ∧
      ({ busyFor 1 with inputs := [hostW 0x010#12 0#32] }).inputs =
        .cycle { rstN := true, bus := .write 4 0#32 } :: [] ∧
      (({ busyFor 1 with inputs := [hostW 0x00C#12 2#32] }).inputs =
        .cycle { rstN := true, bus := .write 3 2#32 } :: [] ∧ (2#32).getLsbD 1 = true) ∧
      ({ busyFor 1 with inputs := [hostW 0x008#12 1#32] }).inputs =
        .cycle { rstN := true, bus := .write 2 1#32 } :: [] ∧
      ({ busyFor 1 with inputs := [hostW 0x7FC#12 9#32] }).inputs =
        .cycle { rstN := true, bus := .write (BitVec.ofNat 10 (0x100 + 8 * 31 + 7)) 9#32 } :: [] ∧
      (busyFor 1).status.busy = true ∧ (busyFor 1).cycles ≤ 1 := by decide

/-- The agents of a run in which the engine steps first and the host then presents nothing for ever. -/
def engineFirst : Nat → AgentStep
  | 0 => .engine
  | _ + 1 => .host .idle

/-- The states of that run, from a busy unit. -/
def engineFirstRun (t : State) : Nat → State
  | 0 => busyFor 1
  | _ + 1 => t

/-- A fair run from a busy unit: its completion, then an idle host. The clause about edges before the
last is empty where an open latency is 1 (R9). -/
theorem witness_BusyPeriodLength :
    State.reset.inputs = [] ∧ (busyFor 1).status.busy = true ∧
      ∃ t, FairRun engineFirst (engineFirstRun t) := by
  refine ⟨by decide, by decide, ?_⟩
  have hd : decode (busyFor 1).snap.cmd = .ok (.mulm 3 1 2) := by decide
  obtain ⟨t, ht, hframe, hbusy, -⟩ := exec_completes (.mulm 3 1 2) (busyFor 1)
  have hc : complete (busyFor 1) = .next t := by rw [complete, hd]; exact ht
  have hr : t.rdata = none := hframe.rdata.trans (by decide)
  refine ⟨t, fun n => ?_, fun n h => absurd (h (n + 1) (by omega)) (by simp [engineFirstRun, hbusy])⟩
  cases n with
  | zero => exact congrArg some hc
  | succ n =>
    have hk : ({ t with rdata := none } : State) = t := by rw [← hr]
    exact congrArg (fun u => some (Host.Outcome.next u)) hk

/-- A busy period with a polling read, a dropped write and unlisted idle cycles after them. -/
theorem witness_BusyPeriodLength_access (n : Nat) :
    ClockedFor n ({ State.reset with inputs := [hostR 0x00C#12, hostW 0x420#12 7#32] }) := by
  intro e he
  have h := List.mem_of_mem_take he
  simp only [List.mem_cons, List.not_mem_nil, or_false] at h
  rcases h with rfl | rfl
  · exact ⟨_, rfl⟩
  · exact ⟨_, rfl⟩

theorem witness_TimingIndependentOfData :
    SameTiming (busyFor 3) ({ busyFor 3 with f := Vector.replicate 32 1 }) ∧
      decode 0x000208C4#32 = .ok (.mulm 3 1 2) ∧ decode 0x00010844#32 = .ok (.mulm 1 1 1) ∧
      opField 0x000208C4#32 = opField 0x00010844#32 ∧
      decode 0x0000000C#32 = .error .illegalOpcode ∧ decode 0x0000680B#32 = .error .badOperand :=
  ⟨by constructor <;> rfl, by decide, by decide, by decide, by decide, by decide⟩

theorem witness_ResetEdge :
    ({ busyFor 3 with inputs := [hostReset] }).inputs =
        .cycle { rstN := false, bus := .idle } :: [] ∧
      ({ busyFor 3 with inputs := [.powerCycle, hostReset] }).inputs =
        .powerCycle :: .cycle { rstN := false, bus := .idle } :: [] := by decide

theorem witness_HeldReset :
    State.reset.rstPrev = true ∧
      ({ State.reset with inputs := [.cycle { rstN := false, bus := .read 0 }] }).inputs =
        .cycle { rstN := false, bus := .read 0 } :: [] := by decide

theorem witness_StoppedClockFreezes :
    ({ busyFor 3 with inputs := [.clockStopped] }).inputs = .clockStopped :: [] := by decide

/-- A running command meets the invariant and takes a step, in its last edge and before it. -/
theorem witness_InvariantStep :
    (Inv (busyFor 1) ∧ ∃ t, step (busyFor 1) = .next t) ∧
      Inv (busyFor 3) ∧ ∃ t, step (busyFor 3) = .next t :=
  ⟨⟨by decide +kernel, exists_next (by decide +kernel)⟩, by decide +kernel,
    exists_next (by decide +kernel)⟩

theorem witness_HostInDuty :
    inDuty ({ busyFor 1 with inputs := [hostR 0x00C#12] }) = true ∧
      inDuty ({ doneState with inputs := [hostW 0x7FC#12 1#32] }) = true ∧
      (busyFor 1).status.ovr = false := by decide

/-- A busy unit before its last edge, in it with a read and with a write, and in a reset cycle. -/
theorem witness_TimelessRefinement :
    ((busyFor 3).nextInput = .cycle { rstN := true, bus := .idle } ∧ (busyFor 3).status.busy = true ∧
        AgentStep.engine ∉ cycleAgents (busyFor 3) { rstN := true, bus := .idle }) ∧
      (({ busyFor 1 with inputs := [hostR 0x00C#12] }).nextInput =
          .cycle { rstN := true, bus := .read 3 } ∧
        cycleAgents (busyFor 1) { rstN := true, bus := .read 3 } = [.host (.read 3), .engine]) ∧
      (({ busyFor 1 with inputs := [hostW 0x00C#12 2#32] }).nextInput =
          .cycle { rstN := true, bus := .write 3 2#32 } ∧
        cycleAgents (busyFor 1) { rstN := true, bus := .write 3 2#32 } =
          [.engine, .host (.write 3 2#32)]) ∧
      ({ busyFor 3 with inputs := [hostReset] }).nextInput =
        .cycle { rstN := false, bus := .idle } := by decide

theorem witness_ResultFlagsSticky :
    (∃ t, exec (.mulm 3 1 2) (busyFor 1) = .next t) ∧
      decode (State.reset.acceptFor 0x0000000C#32 1).snap.cmd = .error .illegalOpcode ∧
      ∃ t, complete (State.reset.acceptFor 0x0000000C#32 1) = .next t :=
  ⟨exists_next (by decide +kernel), by decide, exists_next (by decide +kernel)⟩

theorem witness_BadOperandForms :
    12 < (13 : RegIx).val ∧ (5 : RegIx).val % 2 ≠ 0 ∧ (2 : RegIx).val % 4 ≠ 0 := by decide

theorem witness_FieldAlgebra : residueCommand (.edadd 8 0 4) = true := by decide

/-- Words for the three clauses of WordRule, of each kind of reserved field and of illegal operand. -/
theorem witness_WordRule :
    (wOp 0x00000040#32 = 0 ∧ (0x00000040#32).toNat / 64 ≠ 0) ∧ wRes 0x00200001#32 ≠ 0 ∧
      wRb 0x00010005#32 ≠ 0 ∧ wRd 0x00000072#32 ≠ 0 ∧ 12 < (wRa 0x0000680B#32).val ∧
      (wRd 0x00013151#32).val % 2 ≠ 0 ∧ (wRd 0x00040060#32).val % 4 ≠ 0 ∧
      (wOp 0x00040220#32 = 0x20 ∧ wRes 0x00040220#32 = 0 ∧ (wRd 0x00040220#32).val % 4 = 0 ∧
        (wRa 0x00040220#32).val % 4 = 0 ∧ (wRb 0x00040220#32).val % 4 = 0) := by decide

theorem witness_CswapCommand :
    S ((loaded [(2, 3)]).acceptFor 0 1) 2 % 2 = 1 ∧ S ((loaded [(2, 2)]).acceptFor 0 1) 2 % 2 = 0 := by
  decide +kernel

theorem witness_InvInverts :
    S ((loaded [(2, 3)]).acceptFor 0 1) 2 % P ≠ 0 ∧ S ((loaded [(2, p)]).acceptFor 0 1) 2 % P = 0 := by
  decide +kernel

/-- 4 has a root and 2 has none (F25, F27). -/
theorem witness_SqrtSoundComplete :
    (ran 0x000008C7 [(1, 4)]).status.noroot = false ∧ (ran 0x000008C7 [(1, 2)]).status.noroot = true := by
  decide +kernel

theorem witness_LdkCommand : (0 : RegIx).val ≤ 12 ∧ (12 : RegIx).val ≤ 12 := by decide

/-- Two pairs, and one pair twice. -/
theorem witness_LstepCommand :
    (4 : RegIx).val % 2 = 0 ∧ (30 : RegIx).val % 2 = 0 ∧ (4 : RegIx) ≠ 30 := by decide

/-- The quads of EDADD, EDDBL, EDENC and EDDEC. -/
theorem witness_quads : (0 : RegIx).val % 4 = 0 ∧ (28 : RegIx).val % 4 = 0 := by decide

/-- A state with k in f1 and u in f2 accepted for LADDER. -/
def ladderState (k u : Nat) : State :=
  (loaded [(1, BitVec.ofNat 256 k), (2, BitVec.ofNat 256 u)]).acceptFor 0x000208D2#32 1

theorem witness_LadderCorners :
    (S (ladderState 5 9) 1 % 2 ^ 255 = S (ladderState (2 ^ 255 + 5) (P + 9)) 1 % 2 ^ 255 ∧
        uOf (ladderState 5 9) 2 % P = uOf (ladderState (2 ^ 255 + 5) (P + 9)) 2 % P) ∧
      S (ladderState (2 ^ 255) 9) 1 % 2 ^ 255 = 0 ∧ uOf (ladderState 5 P) 2 % P = 0 ∧
      S (ladderState (2 ^ 255 + 1) 9) 1 % 2 ^ 255 = 1 := by decide +kernel

/-- The registers of program P3. -/
theorem witness_LadderByHand :
    let s := loaded [(4, 1), (6, 9), (7, 1), (1, 9)]
    let l := ladderState 3 (2 ^ 255 + 9)
    (1 : RegIx) ∉ [(4 : RegIx), 5, 6, 7] ∧ (2 : RegIx) ∉ [(4 : RegIx), 5, 6, 7] ∧ D s 4 = 1 ∧
      D s 5 = 0 ∧ D s 6 = uOf l 2 % P ∧ D s 7 = 1 ∧ D s 2 = 0 ∧ D s 1 = uOf l 2 % P ∧
      ∃ t, exec (.ladder 10 1 2) l = .next t := by
  refine ⟨by decide, by decide, by decide +kernel, by decide +kernel, by decide +kernel,
    by decide +kernel, by decide +kernel, by decide +kernel, ?_⟩
  exact (exec_completes _ _).imp fun _ h => h.1

/-- The base point at quad 0, and at quads 4, 8 and 12 the second operands of the three laws. -/
def pointState : State :=
  (loaded (baseAt 0 ++ baseAt 4 ++ [(9, 1), (10, 1)] ++
    [(12, p - 0x216936d3cd6e53fec0a4e231fdd6dc5c692cc7609525a7b2c9562d608f25d51a#256),
      (13, 0x6666666666666666666666666666666666666666666666666666666666666658#256), (14, 1),
      (15, p - 0x67875f0fd78b766566ea4e8e64abe37d20f09f80775152f56dde8ab3a5b7dda3#256)])).acceptFor 0 1

theorem witness_EdwardsPointLaws :
    ExtendedPoint (quadF pointState 0) ∧ ExtendedPoint (quadF pointState 4) ∧
      ExtendedPoint (quadF pointState 8) ∧ ExtendedPoint (quadF pointState 12) ∧
      quadF pointState 4 = quadF pointState 0 ∧
      quadF pointState 8 = (0, 1, 1, 0) ∧
      quadF pointState 12 = (-(quadF pointState 0).1, (quadF pointState 0).2.1,
        (quadF pointState 0).2.2.1, -(quadF pointState 0).2.2.2) := by
  unfold ExtendedPoint
  decide +kernel

/-- The encoding 1 of the identity decodes, and p does not (V2, V6). -/
def decState (v : FVal) : State := (loaded [(0, v)]).acceptFor 0x00000131#32 1

theorem witness_EddecCommand :
    decRef (S (decState 1) 0) = some (0, 1, 1, 0) ∧ decRef (S (decState p) 0) = none := by
  have h1 : S (decState 1) 0 = 1 := by decide +kernel
  have h2 : S (decState p) 0 = P := by decide +kernel
  rw [h1, h2]
  constructor
  · have hp : ¬P ≤ 1 := by norm_num [P]
    have he : (P + 3) / 8 ≠ 0 := by norm_num [P]
    have hr : rootRef 0 = some 0 := by simp [rootRef, zero_pow he]
    have h1 : (1 : Nat) % 2 ^ 255 = 1 := by norm_num
    have hs : (1 : Nat) / 2 ^ 255 = 0 := by norm_num
    have hz : (0 : F).val % 2 = 0 := by rw [ZMod.val_zero]
    simp only [decRef, h1, hs, Nat.cast_one, mul_one, sub_self, zero_mul, hr]
    rw [if_neg hp, hz, if_neg (by simp), if_neg (by simp)]
  · have hv : P ≤ P % 2 ^ 255 := by norm_num [P]
    unfold decRef
    exact if_pos hv

theorem witness_EddecExactlyPoints :
    EncodesPoint (S (decState 1) 0) 0 1 ∧ ¬∃ x y : F, EncodesPoint (S (decState p) 0) x y := by
  have h1 : S (decState 1) 0 = 1 := by decide +kernel
  have h2 : S (decState p) 0 = fieldP := by decide +kernel
  rw [h1, h2]
  have : NeZero fieldP := ⟨fieldP_pos.ne'⟩
  constructor
  · have hv : (1 : F).val = 1 := by decide +kernel
    simp [EncodesPoint, OnCurve, hv]
  · rintro ⟨x, y, -, h⟩
    have hy := ZMod.val_lt y
    have hl := fieldP_lt
    rcases Nat.mod_two_eq_zero_or_one x.val with hx | hx <;> rw [hx] at h <;> omega

/-- EDDEC of the encoding 1 into quad 4, and an EDENC accepted on what it left there. -/
theorem witness_EncodeAfterDecode :
    (decState 1).status.err = false ∧
      ∃ t, exec (.eddec 4 0) (decState 1) = .next t ∧ t.status.err = false ∧
        ∀ j ∈ quadRegs 4, (t.acceptFor 0x00002230#32 1).snap.f[j.val] = t.f[j.val] := by
  refine ⟨by decide +kernel, ?_⟩
  obtain ⟨t, ht⟩ : ∃ t, exec (.eddec 4 0) (decState 1) = .next t := exists_next (by decide +kernel)
  have he : (nextOf (exec (.eddec 4 0) (decState 1))).map (fun t => t.status.err) = some false := by
    decide +kernel
  rw [ht] at he
  exact ⟨t, ht, Option.some.inj he, fun j _ => rfl⟩

theorem witness_EdchkCommand : (4 : RegIx).val % 4 = 0 ∧ (decState p).status.err = false := by
  decide +kernel

end Sys2Proof.Tests
end

section
/-! SUPPORT. The canonical value of a residue, and the machine's arithmetic in it (R11, R121). -/

namespace Sys2Proof.Machine

open Sys2Proof.Claims

/-- The canonical register value of a residue (R11). -/
def ofResidue (x : F) : FVal := BitVec.ofNat 256 x.val

theorem val_lt_fieldP (x : F) : x.val < fieldP :=
  have : NeZero fieldP := ⟨fieldP_pos.ne'⟩
  ZMod.val_lt x

@[simp] theorem toNat_ofResidue (x : F) : (ofResidue x).toNat = x.val :=
  toNat_ofNat_of_lt (val_lt_fieldP x)

theorem canonical_ofResidue (x : F) : Canonical (ofResidue x) := by
  rw [Canonical, toNat_ofResidue]
  exact val_lt_fieldP x

@[simp] theorem residue_ofResidue (x : F) : residue (ofResidue x) = x := by
  have : NeZero fieldP := ⟨fieldP_pos.ne'⟩
  rw [residue, toNat_ofResidue, ZMod.natCast_zmod_val]

/-- A canonical value is the one of its residue. -/
theorem Canonical.eq_ofResidue {a : FVal} (h : Canonical a) : a = ofResidue (residue a) :=
  eq_of_residue_eq h (canonical_ofResidue _) (residue_ofResidue _).symm

theorem ofResidue_inj {x y : F} : ofResidue x = ofResidue y ↔ x = y :=
  ⟨fun h => by rw [← residue_ofResidue x, h, residue_ofResidue], congrArg ofResidue⟩

theorem ofResidue_eq_zero {x : F} : ofResidue x = 0 ↔ x = 0 := by
  have zero : ofResidue 0 = 0 := by rw [ofResidue, ZMod.val_zero]; rfl
  rw [← zero, ofResidue_inj]

theorem ofResidue_one : ofResidue 1 = 1 := by decide +kernel

theorem reduce_eq_ofResidue (n : Nat) : reduce n = ofResidue (n : F) := by
  rw [(canonical_reduce n).eq_ofResidue, residue_reduce]

theorem mulP_eq_ofResidue (a b : FVal) : mulP a b = ofResidue (residue a * residue b) := by
  rw [(canonical_mulP a b).eq_ofResidue, residue_mulP]

/-- Bit 0 of a canonical value is the parity of its residue's representative (R209). -/
theorem ofResidue_bit_zero {x : F} {s : Bool} :
    (ofResidue x).getLsbD 0 = s ↔ x.val % 2 = s.toNat := by
  rw [BitVec.getLsbD, toNat_ofResidue, Nat.testBit_zero]
  cases s <;> simp

/-- p − r is the negated residue, for r not 0 (R212). -/
theorem ofNat_fieldP_sub_val {x : F} (h : x ≠ 0) :
    BitVec.ofNat 256 (fieldP - x.val) = ofResidue (-x) := by
  have : NeZero x := ⟨h⟩
  have : NeZero fieldP := ⟨fieldP_pos.ne'⟩
  rw [ofResidue, ZMod.val_neg_of_ne_zero]

/-- Of x and −x, exactly one has an odd representative, for x not 0: p is odd (R209). -/
theorem val_neg_parity {x : F} (h : x ≠ 0) : (-x).val % 2 = 1 - x.val % 2 := by
  have : NeZero x := ⟨h⟩
  have : NeZero fieldP := ⟨fieldP_pos.ne'⟩
  have hlt := val_lt_fieldP x
  have hodd := fieldP_odd
  rw [ZMod.val_neg_of_ne_zero]
  omega

end Sys2Proof.Machine
end

section
/-! SUPPORT. The square-root rule of R136: what it decides about squares, and that the machine's rule
computes it. -/

namespace Sys2Proof.Machine

open Sys2Proof.Claims

theorem P_eq_fieldP : P = fieldP := fieldP_eq.symm

theorem residue_constSqrtM1 : residue constSqrtM1 = iF := rfl

theorem iF_sq : iF ^ 2 = -1 := constSqrtM1_sq

/-- A root that the rule gives squares to its operand (R136). -/
theorem rootRef_sq {a r : F} (h : rootRef a = some r) : r ^ 2 = a := by
  rw [rootRef] at h
  split at h
  · next direct =>
    obtain rfl := Option.some.inj h
    rw [pow_two, direct]
  · split at h
    · next twisted =>
      obtain rfl := Option.some.inj h
      linear_combination a ^ ((P + 3) / 8) * a ^ ((P + 3) / 8) * iF_sq - twisted
    · cases h

/-- The candidate's fourth power is the square of a square: 8 · ((p + 3) / 8) = p + 3 (R136). -/
theorem candidate_pow_four (r : F) : ((r ^ 2) ^ ((P + 3) / 8)) ^ 4 = (r ^ 2) ^ 2 := by
  have : Fact fieldP.Prime := ⟨fieldP_prime⟩
  have he : 2 * ((P + 3) / 8 * 4) = fieldP + 3 := by norm_num [P, fieldP]
  rw [← pow_mul, ← pow_mul, he, pow_add, ZMod.pow_card]
  ring

/-- The rule finds a root of every square (R136). -/
theorem rootRef_sq_ne_none (r : F) : rootRef (r ^ 2) ≠ none := by
  have : Fact fieldP.Prime := ⟨fieldP_prime⟩
  have quartic := candidate_pow_four r
  rw [rootRef]
  generalize (r ^ 2) ^ ((P + 3) / 8) = b at quartic
  have factors : (b * b - r ^ 2) * (b * b + r ^ 2) = 0 := by linear_combination quartic
  rcases mul_eq_zero.1 factors with h | h
  · simp [sub_eq_zero.1 h]
  · simp only [eq_neg_of_add_eq_zero_left h, if_true]
    split <;> simp

/-- The machine's rule is R136's, with the canonical root. -/
theorem sqrtP_eq (a : FVal) :
    sqrtP a = (rootRef (residue a)).elim { r := 0, noroot := true }
      fun r => { r := ofResidue r, noroot := false } := by
  have : NeZero fieldP := ⟨fieldP_pos.ne'⟩
  have cand : residue (sqrtCandidate a) = residue a ^ ((P + 3) / 8) := by
    rw [sqrtCandidate, residue_powP a (by norm_num)]
    rfl
  have direct : reduce a.toNat = ofResidue (residue a) := reduce_eq_ofResidue a.toNat
  have root : sqrtCandidate a = ofResidue (residue a ^ ((P + 3) / 8)) := by
    rw [← cand]
    exact (canonical_powP _ _).eq_ofResidue
  have negated : reduce (fieldP - (residue a).val) = ofResidue (-residue a) := by
    rw [reduce_eq_ofResidue, Nat.cast_sub (val_lt_fieldP _).le, CharP.cast_eq_zero, zero_sub,
      ZMod.natCast_zmod_val]
  simp only [sqrtP, sqrtFrom, mulP_eq_ofResidue, direct, toNat_ofResidue, negated, ofResidue_inj,
    cand, residue_constSqrtM1, rootRef]
  split_ifs <;> simp [root]

end Sys2Proof.Machine
end

section
/-! SUPPORT. DEC of R212: the machine's function is the reference's, and the reference accepts exactly
the encodings of points of the curve (R16, R209). -/

namespace Sys2Proof.Machine

open Sys2Proof.Claims

/-! ### The machine's DEC in residues -/

/-- The quad of canonical values of four residues (R22). -/
def quadOfResidues (q : F4) : Quad :=
  { x := ofResidue q.1, y := ofResidue q.2.1, z := ofResidue q.2.2.1, t := ofResidue q.2.2.2 }

/-- R212's DEC after check (a), in residues: y, the sign bit and the root give the point. -/
def decRefWith (y : F) (s : Nat) (r : F) : Option F4 :=
  if r = 0 ∧ s = 1 then none
  else
    let x := if r.val % 2 ≠ s then -r else r
    some (x, y, 1, x * y)

theorem residue_constD : residue constD = dF := rfl

theorem toNat_encodedY (v : FVal) : (encodedY v).toNat = v.toNat % 2 ^ 255 := by
  rw [encodedY, BitVec.toNat_and]
  exact Nat.and_two_pow_sub_one_eq_mod v.toNat 255

theorem residue_encodedY (v : FVal) : residue (encodedY v) = ((v.toNat % 2 ^ 255 : Nat) : F) := by
  rw [residue, toNat_encodedY]

/-- The sign bit as a number (R209, R212). -/
theorem toNat_encodedSign (v : FVal) : (encodedSign v).toNat = v.toNat / 2 ^ 255 := by
  have hv := v.isLt
  rw [encodedSign, BitVec.getLsbD, Nat.toNat_testBit]
  omega

/-- u / w of R212 in residues. -/
def decRatioRef (y : F) : F := (y * y - 1) * invF (dF * y * y + 1)

theorem residue_decRatio (y : FVal) : residue (decRatio y) = decRatioRef (residue y) := by
  have one : residue 1 = 1 := by decide +kernel
  have addOne (a : FVal) : residue (addP a 1) = residue a + 1 := by rw [residue_addP, one]
  rw [decRatio, residue_mulP, residue_subP, residue_mulP, residue_invP, addOne, residue_mulP,
    residue_mulP, residue_constD, one, decRatioRef, invF, P_eq_fieldP]

theorem decRef_eq (v : Nat) : decRef v =
    if P ≤ v % 2 ^ 255 then none
    else (rootRef (decRatioRef (v % 2 ^ 255 : Nat))).bind
      (decRefWith (v % 2 ^ 255 : Nat) (v / 2 ^ 255)) := by
  simp only [decRef, decRatioRef]
  split
  · rfl
  · cases rootRef _ <;> rfl

/-- The point DEC answers, written in canonical values (R212). -/
theorem point_eq_quadOfResidues {y : FVal} (hy : Canonical y) (x : F) :
    ({ x := ofResidue x, y := y, z := 1, t := mulP (ofResidue x) y } : Quad) =
      quadOfResidues (x, residue y, 1, x * residue y) := by
  rw [quadOfResidues, ofResidue_one, ← hy.eq_ofResidue, mulP_eq_ofResidue, residue_ofResidue]

/-- The machine's check (c) and its choice of sign, on a canonical root (R212). -/
theorem decWith_ofResidue {y : FVal} (hy : Canonical y) (s : Bool) (r : F) :
    decWith y s { r := ofResidue r, noroot := false } =
      (decRefWith (residue y) s.toNat r).map quadOfResidues := by
  simp only [decWith, decRefWith, ofResidue_eq_zero, ne_eq, ofResidue_bit_zero, toNat_ofResidue,
    Bool.false_eq_true, if_false, Bool.toNat_eq_one]
  split
  · rfl
  · next accepted =>
    split
    · next flip =>
      have hr : r ≠ 0 := by
        rintro rfl
        rw [ZMod.val_zero] at flip
        cases s with
        | false => exact flip rfl
        | true => exact accepted ⟨rfl, rfl⟩
      rw [ofNat_fieldP_sub_val hr, point_eq_quadOfResidues hy]
      rfl
    · rw [point_eq_quadOfResidues hy]
      rfl

/-- The machine's DEC is the reference's, with canonical values (R212). -/
theorem decPoint_eq (v : FVal) : decPoint v = (decRef v.toNat).map quadOfResidues := by
  rw [decPoint, decRef_eq, P_eq_fieldP, toNat_encodedY]
  split
  · rfl
  · next canonical =>
    have hy : Canonical (encodedY v) := by rw [Canonical, toNat_encodedY]; omega
    rw [sqrtP_eq, residue_decRatio, ← residue_encodedY, ← toNat_encodedSign]
    cases rootRef (decRatioRef (residue (encodedY v))) with
    | none => rfl
    | some r => exact decWith_ofResidue hy _ r

/-! ### What DEC accepts -/

/-- d·y² + 1 is never 0, since d is no square and −1 is one (R212). -/
theorem dec_denominator_ne_zero (y : F) : dF * y * y + 1 ≠ 0 := by
  have : Fact fieldP.Prime := ⟨fieldP_prime⟩
  intro h
  have unit : dF * (iF * y) ^ 2 = 1 := by linear_combination dF * y ^ 2 * iF_sq - h
  refine constD_not_square (iF * y)⁻¹ ?_
  rw [inv_pow, residue_constD]
  exact (eq_inv_of_mul_eq_one_left unit).symm

/-- invF inverts what is not 0 (R11, R133). -/
theorem mul_invF {a : F} (h : a ≠ 0) : a * invF a = 1 := by
  rw [← residue_ofResidue a] at h
  have inverse := residue_mul_invP h
  rw [residue_invP, residue_ofResidue] at inverse
  rw [invF, P_eq_fieldP, inverse]

/-- The points of the curve are the square roots of DEC's ratio (R16, R212). -/
theorem onCurve_iff {x y : F} : OnCurve x y ↔ x ^ 2 = decRatioRef y := by
  have inverse := mul_invF (dec_denominator_ne_zero y)
  rw [OnCurve, decRatioRef]
  constructor
  · intro h
    linear_combination (-x ^ 2) * inverse - invF (dF * y * y + 1) * h
  · intro h
    linear_combination -(dF * y * y + 1) * h - (y * y - 1) * inverse

/-- What passes check (c) is a root with the parity of the sign bit (R212). -/
theorem decRefWith_sound {y r : F} {s : Nat} (hs : s ≤ 1) {q : F4} (h : decRefWith y s r = some q) :
    ∃ x, x ^ 2 = r ^ 2 ∧ x.val % 2 = s ∧ q = (x, y, 1, x * y) := by
  rw [decRefWith] at h
  split at h
  · cases h
  · next accepted =>
    obtain rfl := Option.some.inj h
    by_cases keep : r.val % 2 = s
    · exact ⟨r, rfl, keep, by simp [keep]⟩
    · have hr : r ≠ 0 := by
        rintro rfl
        rw [ZMod.val_zero] at keep
        exact accepted ⟨rfl, by omega⟩
      have parity := val_neg_parity hr
      exact ⟨-r, neg_sq r, by omega, by simp [keep]⟩

/-- A root passes check (c) with its own parity as the sign bit, and is the one chosen (R212). -/
theorem decRefWith_complete {x y r : F} (hx : x ^ 2 = r ^ 2) :
    decRefWith y (x.val % 2) r = some (x, y, 1, x * y) := by
  have : Fact fieldP.Prime := ⟨fieldP_prime⟩
  have accepted : ¬(r = 0 ∧ x.val % 2 = 1) := by
    rintro ⟨rfl, odd⟩
    obtain rfl : x = 0 := by simpa using hx
    simp at odd
  rw [decRefWith, if_neg accepted]
  by_cases same : x = r
  · simp [same]
  · obtain rfl : x = -r := (sq_eq_sq_iff_eq_or_eq_neg.1 hx).resolve_left same
    have hr : r ≠ 0 := by
      rintro rfl
      exact same neg_zero
    have parity := val_neg_parity hr
    rw [if_pos (by omega)]

/-- DEC accepts exactly the encodings of points of the curve, and answers the point (R209, R212). -/
theorem decRef_eq_some_iff {v : Nat} (hv : v < 2 ^ 256) {q : F4} :
    decRef v = some q ↔ ∃ x y, EncodesPoint v x y ∧ q = (x, y, 1, x * y) := by
  have : NeZero fieldP := ⟨fieldP_pos.ne'⟩
  have hs : v / 2 ^ 255 ≤ 1 := by omega
  have hl := fieldP_lt
  rw [decRef_eq, P_eq_fieldP]
  constructor
  · intro h
    split at h
    · cases h
    · next canonical =>
      obtain ⟨r, hroot, hwith⟩ := Option.bind_eq_some_iff.1 h
      obtain ⟨x, hx, hp, rfl⟩ := decRefWith_sound hs hwith
      refine ⟨x, _, ⟨onCurve_iff.2 (hx.trans (rootRef_sq hroot)), ?_⟩, rfl⟩
      rw [ZMod.val_natCast, Nat.mod_eq_of_lt (a := v % 2 ^ 255) (by omega), hp]
      omega
  · rintro ⟨x, y, ⟨hc, rfl⟩, rfl⟩
    have hy := val_lt_fieldP y
    have yField : (y.val + 2 ^ 255 * (x.val % 2)) % 2 ^ 255 = y.val := by omega
    have sign : (y.val + 2 ^ 255 * (x.val % 2)) / 2 ^ 255 = x.val % 2 := by omega
    have hx := onCurve_iff.1 hc
    rw [yField, sign, if_neg (by omega), ZMod.natCast_zmod_val, ← hx]
    obtain ⟨r, hr⟩ := Option.ne_none_iff_exists'.1 (rootRef_sq_ne_none x)
    rw [hr]
    exact decRefWith_complete (rootRef_sq hr).symm

end Sys2Proof.Machine
end

section
/-! SUPPORT. A completion in the terms of the statements (R231), and EDDEC's two outcomes (R213). -/

namespace Sys2Proof.Machine

open Sys2Proof.Claims

/-- A command that succeeds with some writes completes; what its registers satisfy is to be read off
the writes (R231). -/
theorem completes_of_succeed {i : Instr} {s : State} {ws : List (RegIx × FVal)}
    {fl : Status → Status} {result : State → Prop} (he : exec i s = succeed s ws fl)
    (hr : ∀ t, t.f = (s.writeRegs ws).f → result t) :
    Completes i s (ws.map Prod.fst) (fl s.status).finished result := by
  obtain ⟨t, ht, hframe, hf, hst⟩ := succeed_spec s ws fl
  exact ⟨t, he.trans ht, hframe, fun j hj => by rw [hf, State.writeRegs_get_of_not_mem ws j s hj], hst,
    hr t hf⟩

/-- A command that ends in a failed completion fails in the sense of the statements (R231). -/
theorem fails_of_failWith {i : Instr} {s : State} {c : CmdError} (he : exec i s = failWith s c) :
    Fails i s c.code := by
  obtain ⟨t, ht, hframe, hf, hst⟩ := failWith_spec s c
  exact ⟨t, he.trans ht, hframe, hf, hst⟩

/-- A quad's writes leave the quad in its registers, which are distinct (R22). -/
theorem quadIs_of_quadWrites {s t : State} {rd : RegIx} {q : F4}
    (hf : t.f = (s.writeRegs (quadWrites rd (quadOfResidues q))).f) : QuadIs t rd q := by
  have distinct : rd + 1 ≠ rd ∧ rd + 2 ≠ rd ∧ rd + 3 ≠ rd ∧ rd + 2 ≠ rd + 1 ∧ rd + 3 ≠ rd + 1 ∧
      rd + 3 ≠ rd + 2 := by
    simp
  obtain ⟨h10, h20, h30, h21, h31, h32⟩ := distinct
  have written (j : RegIx) : t.f[j.val] = (s.writeRegs (quadWrites rd (quadOfResidues q))).f[j.val] := by
    rw [hf]
  simp only [QuadIs, D, written, quadWrites, State.writeRegs_cons, State.writeRegs_nil,
    State.writeReg_get, h10, h20, h30, h21, h31, h32, if_true, if_false, quadOfResidues,
    toNat_ofResidue, and_self]

/-- EDDEC into an aligned quad is decided by the reference's DEC (R213). -/
theorem exec_eddec {rd ra : RegIx} {s : State} (hrd : rd.val % 4 = 0) :
    exec (.eddec rd ra) s = (decRef (S s ra)).elim (failWith s .notOnCurve)
      fun q => succeed s (quadWrites rd (quadOfResidues q)) Status.keep := by
  have aligned : isQuadBase rd = true := by rw [isQuadBase, hrd]; rfl
  rw [exec, execEddec, aligned, if_pos rfl, decPoint_eq, State.src, ← S]
  cases decRef (S s ra) <;> rfl

/-- EDDEC of an encoding that DEC accepts (R213). -/
theorem eddec_completes {rd ra : RegIx} {s : State} {q : F4} (hrd : rd.val % 4 = 0)
    (hq : decRef (S s ra) = some q) :
    Completes (.eddec rd ra) s (quadRegs rd) (finished s.status) fun t => QuadIs t rd q :=
  completes_of_succeed (by rw [exec_eddec hrd, hq]; rfl) fun _ => quadIs_of_quadWrites

/-- EDDEC of an encoding that DEC rejects (R213). -/
theorem eddec_fails {rd ra : RegIx} {s : State} (hrd : rd.val % 4 = 0)
    (hq : decRef (S s ra) = none) : Fails (.eddec rd ra) s 4 :=
  fails_of_failWith (c := .notOnCurve) (by rw [exec_eddec hrd, hq]; rfl)

/-- Settles O58: DEC is the reference's DEC, which finds the root of (y² − 1) / (d·y² + 1) of the
encoded sign exactly if the encoding is that of a point. -/
theorem eddecExactlyPoints : Obligations.EddecExactlyPoints := by
  intro rd ra s hrd
  have hv : S s ra < 2 ^ 256 := s.snap.f[ra.val].isLt
  refine ⟨fun x y h => eddec_completes hrd ((decRef_eq_some_iff hv).2 ⟨x, y, h, rfl⟩), fun h => ?_⟩
  refine eddec_fails hrd (Option.eq_none_iff_forall_ne_some.2 fun q hq => h ?_)
  obtain ⟨x, y, henc, -⟩ := (decRef_eq_some_iff hv).1 hq
  exact ⟨x, y, henc⟩

end Sys2Proof.Machine
end

section
/-! SUPPORT. The opcode and the operands of a word that decodes (R92, R94). -/

namespace Sys2Proof

/-- A row of R94 belongs to the opcode of its command, and its operand kinds are the ones that the
command's well-formedness asks for (R92). -/
theorem opEntry_eq_some {op : BitVec 6} {rd ra rb : RegIx} {row : OpRow} {i : Instr}
    (h : opEntry op rd ra rb = some (row, i)) :
    op = i.opcode ∧
      i.wellFormed = (row.rd.operandOk rd && row.ra.operandOk ra && row.rb.operandOk rb) := by
  unfold opEntry at h
  split at h <;> cases h
  all_goals
    next hop =>
    exact ⟨BitVec.eq_of_toNat_eq hop, by
      simp [Instr.wellFormed, FieldKind.operandOk, isPairBase, isQuadBase, isConstIndex]⟩

/-- The opcode field of a word that decodes is its command's opcode (R94). -/
theorem decode_ok_opcode {w : Word} {i : Instr} (h : decode w = .ok i) : opField w = i.opcode := by
  obtain ⟨row, hrow, -⟩ := decode_ok h
  exact (opEntry_eq_some hrow).1

/-- A word that decodes has legal operands (R92, R96). -/
theorem decode_ok_wellFormed {w : Word} {i : Instr} (h : decode w = .ok i) : i.wellFormed = true := by
  obtain ⟨row, hrow, -, -, -, -, hrd, hra, hrb⟩ := decode_ok h
  rw [(opEntry_eq_some hrow).2, hrd, hra, hrb]
  rfl

end Sys2Proof
end

section
/-! SUPPORT. The named registers of the window as the host reaches them (R63), and the statements on
reset and on each of them. -/

namespace Sys2Proof.Machine

open Sys2Proof.Claims

/-! ### Reads and writes of the named registers (R63) -/

@[simp] theorem memRead_id (s : State) : memRead s 0x000#12 = idWord := rfl
@[simp] theorem memRead_version (s : State) : memRead s 0x004#12 = versionWord := rfl
@[simp] theorem memRead_ctrl (s : State) : memRead s 0x008#12 = s.ctrl.toWord := rfl
@[simp] theorem memRead_status (s : State) : memRead s 0x00C#12 = s.status.toWord := rfl
@[simp] theorem memRead_cmd (s : State) : memRead s 0x010#12 = s.lastCmd := rfl

@[simp] theorem memWrite_id (s : State) (v : Word) : memWrite s 0x000#12 v = s := rfl
@[simp] theorem memWrite_version (s : State) (v : Word) : memWrite s 0x004#12 v = s := rfl

@[simp] theorem memWrite_ctrl (s : State) (v : Word) : memWrite s 0x008#12 v =
    if s.status.busy then s.dropWrite else s.setCtrl (Ctrl.ofWord v) := rfl

@[simp] theorem memWrite_status (s : State) (v : Word) :
    memWrite s 0x00C#12 v = s.setStatus (s.status.writeOneToClear v) := rfl

@[simp] theorem memWrite_cmd (s : State) (w : Word) : memWrite s 0x010#12 w =
    if s.status.busy then s.dropWrite else s.accept w := rfl

/-! ### CTRL and STATUS as numbers (R34, R35) -/

theorem Ctrl.toNat_toWord (c : Ctrl) : c.toWord.toNat = 2 * c.umask.toNat + c.irqEn.toNat := by
  simp [Ctrl.toWord, BitVec.append_ofBool, BitVec.toNat_concat, Nat.mul_comm]

theorem Status.toNat_toWord (t : Status) : t.toWord.toNat =
    t.busy.toNat + 2 * t.done.toNat + 4 * t.err.toNat + 8 * t.ovr.toNat + 16 * t.carry.toNat
      + 32 * t.noroot.toNat + 64 * t.oncurve.toNat + 256 * t.errcode.toNat := by
  have top : (0#20 ++ t.errcode ++ 0#1).toNat = 2 * t.errcode.toNat := by
    rw [BitVec.toNat_append, BitVec.toNat_append]
    simp [Nat.shiftLeft_eq, Nat.mul_comm]
  simp only [Status.toWord, BitVec.append_ofBool, BitVec.toNat_concat, top]
  omega

/-- Write-one-to-clear as a choice for each of the three bits (R35). -/
theorem Status.writeOneToClear_eq_ite (t : Status) (v : Word) : t.writeOneToClear v =
    { t with
      done := if v.getLsbD 1 then false else t.done
      err := if v.getLsbD 2 then false else t.err
      ovr := if v.getLsbD 3 then false else t.ovr } := by
  have clear (a b : Bool) : (a && !b) = if b then false else a := by cases b <;> simp
  simp only [Status.writeOneToClear, clear]

/-! ### The latency of a word (R280) -/

/-- A word that does not decode takes LAT_ERR (R280). -/
theorem latencyOf_error {w : Word} {c : CmdError} (h : decode w = .error c) :
    latencyOf w = Config.errLatency := by
  simp only [latencyOf, h]

/-- A word that decodes takes the latency of its command's opcode (R280). -/
theorem latencyOf_ok {w : Word} {i : Instr} (h : decode w = .ok i) :
    latencyOf w = Config.latency i.opcode := by
  simp only [latencyOf, h, decode_ok_opcode h]

/-! ### The statements -/

/-- Settles O5: the reset state is written out field by field. -/
theorem resetValues : Obligations.ResetValues := by
  have zeros (i : RegIx) : (Vector.replicate 32 (0 : FVal))[i.val] = 0 := Vector.getElem_replicate _
  exact ⟨zeros, memRead_id _, memRead_version _, rfl, rfl, rfl, memRead_cmd _, zeros, rfl, rfl, rfl, rfl,
    rfl, rfl⟩

/-- Settles O8, for every state, busy or not. -/
theorem identityRegisters : Obligations.IdentityRegisters :=
  fun s v => ⟨memRead_id s, memRead_version s, memWrite_id s v, memWrite_version s v⟩

/-- Settles O9, by the value of CTRL as a word. -/
theorem ctrlAccess : Obligations.CtrlAccess := by
  refine ⟨fun s => Ctrl.toNat_toWord s.ctrl, fun s v idle => ?_⟩
  rw [memWrite_ctrl, idle]
  rfl

/-- Settles O10, by the value of STATUS as a word. -/
theorem statusAccess : Obligations.StatusAccess := by
  refine ⟨fun s => Status.toNat_toWord s.status, fun s v => ?_⟩
  rw [memWrite_status, Status.writeOneToClear_eq_ite]
  rfl

/-- Settles O11: the write is an acceptance or, while busy, dropped, and the latency is that of decode's
outcome. -/
theorem commandAcceptance : Obligations.CommandAcceptance := by
  refine ⟨memRead_cmd, fun s w idle => ?_, fun w => ?_, fun s w busy => ?_⟩
  · rw [memWrite_cmd, idle]
    rfl
  · exact ⟨latencyOf_pos w, fun _ => latencyOf_error, fun _ => latencyOf_ok⟩
  · rw [memWrite_cmd, busy]
    rfl

end Sys2Proof.Machine
end

section
/-! SUPPORT. What a command answers, as a function of the STATUS it finds: its writes are the
destinations of R24, its error is decided by the snapshot, and its result flag is its own (R37, R231). -/

namespace Sys2Proof.Machine

open Sys2Proof.Safety Sys2Proof.Claims

/-- An outcome is the next state of one state at most. -/
theorem next_unique {o : Host.Outcome State Fault Refusal} {s t : State} (h : o = .next s)
    (h' : o = .next t) : s = t := by
  injection h.symm.trans h'

/-! ### Working state does not outlive the command (R45) -/

theorem State.writeRegs_setExp (v : FVal) (ws : List (RegIx × FVal)) :
    ∀ s : State, (s.setExp v).writeRegs ws = (s.writeRegs ws).setExp v := by
  induction ws with
  | nil => exact fun _ => rfl
  | cons x ws ih => exact fun s => ih (s.writeReg x.1 x.2)

theorem State.writeRegs_setLadder (w : LadderWork) (ws : List (RegIx × FVal)) :
    ∀ s : State, (s.setLadder w).writeRegs ws = (s.writeRegs ws).setLadder w := by
  induction ws with
  | nil => exact fun _ => rfl
  | cons x ws ih => exact fun s => ih (s.writeReg x.1 x.2)

/-- Completion clears the exponentiation temporary, whatever it held. -/
theorem succeed_setExp (s : State) (v : FVal) (ws : List (RegIx × FVal)) (fl : Status → Status) :
    succeed (s.setExp v) ws fl = succeed s ws fl := by
  rw [succeed, State.writeRegs_setExp]
  rfl

/-- Completion clears the ladder working state, whatever it held. -/
theorem succeed_setLadder (s : State) (w : LadderWork) (ws : List (RegIx × FVal))
    (fl : Status → Status) : succeed (s.setLadder w) ws fl = succeed s ws fl := by
  rw [succeed, State.writeRegs_setLadder]
  rfl

/-! ### The result flag of a command (R37) -/

/-- What a command does to the result flags: ADD, SQRT and EDCHK each write their own (R37). -/
def resultFlag (i : Instr) (s : State) : Status → Status :=
  match i with
  | .add _ ra rb => Status.setCarry (carryOut (s.src ra) (s.src rb))
  | .sqrt _ ra => Status.setNoroot (sqrtP (s.src ra)).noroot
  | .edchk ra => Status.setOncurve (decPoint (s.src ra)).isSome
  | _ => Status.keep

section

variable {i : Instr} (s : State) (st : Status)

theorem resultFlag_carry (h : ∀ rd ra rb, i ≠ .add rd ra rb) :
    (resultFlag i s st).carry = st.carry := by
  cases i with
  | add rd ra rb => exact absurd rfl (h rd ra rb)
  | _ => simp [resultFlag]

theorem resultFlag_noroot (h : ∀ rd ra, i ≠ .sqrt rd ra) :
    (resultFlag i s st).noroot = st.noroot := by
  cases i with
  | sqrt rd ra => exact absurd rfl (h rd ra)
  | _ => simp [resultFlag]

theorem resultFlag_oncurve (h : ∀ ra, i ≠ .edchk ra) :
    (resultFlag i s st).oncurve = st.oncurve := by
  cases i with
  | edchk ra => exact absurd rfl (h ra)
  | _ => simp [resultFlag]

@[simp] theorem resultFlag_err : (resultFlag i s st).err = st.err := by
  cases i <;> simp [resultFlag]

@[simp] theorem resultFlag_errcode : (resultFlag i s st).errcode = st.errcode := by
  cases i <;> simp [resultFlag]

end

/-- STATUS with the error of a command reported, if it has one (R231). -/
def Status.reported (e : Option CmdError) (t : Status) : Status := e.elim t t.failed

@[simp] theorem Status.reported_carry (e : Option CmdError) (t : Status) :
    (t.reported e).carry = t.carry := by
  cases e <;> rfl

@[simp] theorem Status.reported_noroot (e : Option CmdError) (t : Status) :
    (t.reported e).noroot = t.noroot := by
  cases e <;> rfl

@[simp] theorem Status.reported_oncurve (e : Option CmdError) (t : Status) :
    (t.reported e).oncurve = t.oncurve := by
  cases e <;> rfl

theorem Status.reported_err_congr (e : Option CmdError) {t u : Status} (h : t.err = u.err) :
    (t.reported e).err = (u.reported e).err := by
  cases e
  · exact h
  · rfl

theorem Status.reported_errcode_congr (e : Option CmdError) {t u : Status}
    (h : t.errcode = u.errcode) : (t.reported e).errcode = (u.reported e).errcode := by
  cases e
  · exact h
  · rfl

/-! ### What a command answers -/

/-- A command succeeds with writes to its destinations, or fails; which of the two, the values written
and the code are the same whatever STATUS it finds (R24, R37). -/
theorem exec_uniform (i : Instr) (s : State) :
    (∃ ws, ws.map Prod.fst = dests i ∧
      ∀ st, exec i (s.setStatus st) = succeed (s.setStatus st) ws (resultFlag i s)) ∨
    ∃ c, resultFlag i s = Status.keep ∧
      ∀ st, exec i (s.setStatus st) = failWith (s.setStatus st) c := by
  cases i with
  | nop => exact .inl ⟨_, rfl, fun _ => rfl⟩
  | add rd ra rb =>
    simp only [exec, execAdd, State.src_setStatus]
    exact .inl ⟨_, rfl, fun _ => rfl⟩
  | addm rd ra rb =>
    simp only [exec, execAddm, State.src_setStatus]
    exact .inl ⟨_, rfl, fun _ => rfl⟩
  | subm rd ra rb =>
    simp only [exec, execSubm, State.src_setStatus]
    exact .inl ⟨_, rfl, fun _ => rfl⟩
  | mulm rd ra rb =>
    simp only [exec, execMulm, State.src_setStatus]
    exact .inl ⟨_, rfl, fun _ => rfl⟩
  | sqrm rd ra =>
    simp only [exec, execSqrm, State.src_setStatus]
    exact .inl ⟨_, rfl, fun _ => rfl⟩
  | inv rd ra =>
    simp only [exec, execInv_eq, succeed_setExp, State.src_setStatus]
    exact .inl ⟨_, rfl, fun _ => rfl⟩
  | sqrt rd ra =>
    simp only [exec, execSqrt_eq, succeed_setExp, State.src_setStatus]
    exact .inl ⟨_, rfl, fun _ => rfl⟩
  | red rd ra =>
    simp only [exec, execRed, State.src_setStatus]
    exact .inl ⟨_, rfl, fun _ => rfl⟩
  | mov rd ra =>
    simp only [exec, execMov, State.src_setStatus]
    exact .inl ⟨_, rfl, fun _ => rfl⟩
  | cswap rd ra rb =>
    let c := (s.src rb).getLsbD 0
    exact .inl ⟨[(rd, if c then s.src ra else s.src rd), (ra, if c then s.src rd else s.src ra)], rfl,
      fun _ => rfl⟩
  | ldk rd k =>
    simp only [exec, execLdk]
    cases krom k with
    | none => exact .inr ⟨_, rfl, fun _ => rfl⟩
    | some v => exact .inl ⟨_, rfl, fun _ => rfl⟩
  | clamp rd ra =>
    simp only [exec, execClamp, State.src_setStatus]
    exact .inl ⟨_, rfl, fun _ => rfl⟩
  | lstep rd ra rb =>
    simp only [exec, execLstep, State.src_setStatus]
    cases isPairBase rd && isPairBase ra
    · exact .inr ⟨_, rfl, fun _ => rfl⟩
    · exact .inl ⟨_, rfl, fun _ => rfl⟩
  | ladder rd ra rb =>
    simp only [exec, execLadder_eq, succeed_setExp, succeed_setLadder, State.src_setStatus,
      State.srcU_setStatus]
    exact .inl ⟨_, rfl, fun _ => rfl⟩
  | edadd rd ra rb =>
    simp only [exec, execEdadd, State.srcQuad_setStatus]
    cases isQuadBase rd && isQuadBase ra && isQuadBase rb
    · exact .inr ⟨_, rfl, fun _ => rfl⟩
    · exact .inl ⟨_, rfl, fun _ => rfl⟩
  | eddbl rd ra =>
    simp only [exec, execEddbl, State.srcQuad_setStatus]
    cases isQuadBase rd && isQuadBase ra
    · exact .inr ⟨_, rfl, fun _ => rfl⟩
    · exact .inl ⟨_, rfl, fun _ => rfl⟩
  | edenc rd ra =>
    cases aligned : isQuadBase ra
    · simp only [exec, execEdenc, aligned]
      exact .inr ⟨_, rfl, fun _ => rfl⟩
    · simp only [exec, execEdenc_eq _ _ _ aligned, succeed_setExp, State.srcQuad_setStatus]
      exact .inl ⟨_, rfl, fun _ => rfl⟩
  | eddec rd ra =>
    simp only [exec, execEddec, State.src_setStatus]
    cases isQuadBase rd
    · exact .inr ⟨_, rfl, fun _ => rfl⟩
    · cases decPoint (s.src ra) with
      | none => exact .inr ⟨_, rfl, fun _ => rfl⟩
      | some q => exact .inl ⟨_, rfl, fun _ => rfl⟩
  | edchk ra =>
    simp only [exec, execEdchk, State.src_setStatus]
    exact .inl ⟨_, rfl, fun _ => rfl⟩

/-- Every command answers a next state: its registers and its error do not depend on STATUS, and STATUS
changes by the result flag, the error and the completion (R24, R37, R231). -/
theorem exec_answer (i : Instr) (s : State) :
    ∃ (f : Vector FVal 32) (e : Option CmdError),
      (∀ j : RegIx, j ∉ dests i → f[j.val] = s.f[j.val]) ∧
      ∀ st, ∃ t, exec i (s.setStatus st) = .next t ∧ CompletionFrame (s.setStatus st) t ∧ t.f = f ∧
        t.status = ((resultFlag i s st).reported e).finished := by
  rcases exec_uniform i s with ⟨ws, hws, he⟩ | ⟨c, hkeep, he⟩
  · refine ⟨(s.writeRegs ws).f, none, fun j hj => ?_, fun st => ?_⟩
    · exact State.writeRegs_get_of_not_mem ws j s (hws ▸ hj)
    · obtain ⟨t, ht, frame, hf, hst⟩ := succeed_spec (s.setStatus st) ws (resultFlag i s)
      exact ⟨t, (he st).trans ht, frame, hf.trans (State.writeRegs_f_congr ws _ _ rfl), hst⟩
  · refine ⟨s.f, some c, fun _ _ => rfl, fun st => ?_⟩
    obtain ⟨t, ht, frame, hf, hst⟩ := failWith_spec (s.setStatus st) c
    exact ⟨t, (he st).trans ht, frame, hf, by rw [hkeep]; exact hst⟩

/-! ### The statements -/

/-- Settles O30, by what every command answers from the STATUS that it finds. -/
theorem destinationTable : Obligations.DestinationTable := by
  intro i s
  obtain ⟨f, e, others, answer⟩ := exec_answer i s
  obtain ⟨t, ht, frame, rfl, -⟩ := answer s.status
  exact ⟨t, ht, frame, others⟩

/-- Each result flag changes under its own command only (R37). -/
theorem exec_keeps_flags {i : Instr} {s t : State} (h : exec i s = .next t) :
    ((∀ rd ra rb, i ≠ .add rd ra rb) → t.status.carry = s.status.carry) ∧
    ((∀ rd ra, i ≠ .sqrt rd ra) → t.status.noroot = s.status.noroot) ∧
    ((∀ ra, i ≠ .edchk ra) → t.status.oncurve = s.status.oncurve) := by
  obtain ⟨f, e, -, answer⟩ := exec_answer i s
  obtain ⟨u, hu, -, -, hst⟩ := answer s.status
  obtain rfl := next_unique hu h
  simp only [hst, Status.finished_carry, Status.finished_noroot, Status.finished_oncurve,
    Status.reported_carry, Status.reported_noroot, Status.reported_oncurve]
  exact ⟨resultFlag_carry s _, resultFlag_noroot s _, resultFlag_oncurve s _⟩

/-- Settles O31: what a command answers depends on STATUS only through the flags it keeps. -/
theorem resultFlagsSticky : Obligations.ResultFlagsSticky := by
  refine ⟨fun i s t => exec_keeps_flags, fun s t c bad done => ?_, fun i s b c d => ?_⟩
  · obtain ⟨u, hu, -, -, hst⟩ := failWith_spec s c
    have failed : complete s = failWith s c := by rw [complete, bad]
    obtain rfl := next_unique (failed.trans hu) done
    rw [hst]
    exact ⟨rfl, rfl, rfl⟩
  · obtain ⟨f, e, -, answer⟩ := exec_answer i s
    obtain ⟨t, ht, -, htf, hts⟩ := answer s.status
    obtain ⟨u, hu, -, huf, hus⟩ :=
      answer { s.status with carry := b, noroot := c, oncurve := d }
    refine ⟨t, u, ht, hu, htf.trans huf.symm, ?_⟩
    rw [hts, hus]
    refine ⟨Status.reported_err_congr e (by simp), Status.reported_errcode_congr e (by simp), ?_, ?_, ?_⟩
    · rintro ⟨rd, ra, rb, rfl⟩
      simp [resultFlag]
    · rintro ⟨rd, ra, rfl⟩
      simp [resultFlag]
    · rintro ⟨ra, rfl⟩
      simp [resultFlag]

end Sys2Proof.Machine
end

section
/-! SUPPORT. The invariant is kept by each operation of a step (R36, R45, R119, R232, R233). -/

namespace Sys2Proof.Machine

open Sys2Proof.Safety Sys2Proof.Claims

/-! ### The error codes a completed word can leave (R233) -/

theorem errcodeFits_error {w : Word} {c : CmdError} (h : decode w = .error c) :
    errcodeFits w c.code = true := by
  simp [errcodeFits, h]

theorem errcodeFits_zero {w : Word} {i : Instr} (h : decode w = .ok i) : errcodeFits w 0 = true := by
  rw [errcodeFits, h]
  cases i <;> rfl

theorem errcodeFits_notOnCurve {w : Word} {rd ra : RegIx} (h : decode w = .ok (.eddec rd ra)) :
    errcodeFits w CmdError.notOnCurve.code = true := by
  rw [errcodeFits, h]
  rfl

/-- No completed word leaves a code above 4 (R232). -/
theorem errcodeFits_le {w : Word} {c : BitVec 4} (h : errcodeFits w c = true) : c.toNat ≤ 4 := by
  unfold errcodeFits at h
  split at h
  · next e _ =>
    rw [beq_iff_eq.1 h]
    exact e.code_bounds.2
  · rcases Bool.or_eq_true_iff.1 h with h | h <;> rw [beq_iff_eq.1 h] <;> decide
  · rw [beq_iff_eq.1 h]
    decide

/-- The completion of a command that was accepted without an error leaves a code that fits the word
executed, and ERR only with a code (R231, R233). -/
theorem complete_errcode {s t : State} (herr : s.status.err = false) (hcode : s.status.errcode = 0)
    (h : complete s = .next t) :
    errcodeFits s.snap.cmd t.status.errcode = true ∧ (t.status.err = true → t.status.errcode ≠ 0) := by
  rcases complete_cases s with ⟨c, bad, hc⟩ | ⟨i, good, hc⟩
  · obtain ⟨u, hu, -, -, hst⟩ := failWith_spec s c
    obtain rfl := next_unique (hc.trans hu) h
    rw [hst]
    exact ⟨errcodeFits_error bad, fun _ => c.code_bounds.1⟩
  · rcases exec_wellFormed_err (decode_ok_wellFormed good) herr (hc.symm.trans h) with
      ⟨noErr, code⟩ | ⟨⟨rd, ra, rfl⟩, code⟩
    · rw [code, hcode, noErr]
      exact ⟨errcodeFits_zero good, fun e => by cases e⟩
    · rw [code]
      exact ⟨errcodeFits_notOnCurve good, fun _ => CmdError.notOnCurve.code_bounds.1⟩

/-! ### The invariant under each operation -/

/-- The reset state meets the invariant, whatever stands outside the unit (R47, R270). -/
theorem inv_resetEdge (s : State) : Inv s.resetEdge := by
  intro _
  have status : StatusOk Status.reset := by decide
  have nop : decode State.reset.lastCmd = .ok .nop := by decide
  exact ⟨status, (nomatch ·), ⟨fun _ => ⟨rfl, rfl⟩, rfl, rfl⟩, fun _ => errcodeFits_zero nop⟩

theorem inv_beginCycle {s : State} (h : Inv s) (pins : Pins) : Inv (s.beginCycle pins) := h

theorem inv_popInput {s : State} (h : Inv s) : Inv s.popInput := h

/-- A completion ends the busy period in a state that meets the invariant (R231). -/
theorem inv_complete {s t : State} (h : Inv s) (busy : s.status.busy = true)
    (ht : complete s = .next t) : Inv t := by
  obtain ⟨u, hu, frame, hbusy, -⟩ := complete_completes s
  obtain rfl := next_unique hu ht
  intro hreset
  obtain ⟨⟨-, -, -, noErr⟩, running, -, -⟩ := h (frame.resetDone.symm.trans hreset)
  have word : u.lastCmd = s.snap.cmd := by rw [frame.lastCmd, (running busy).1]; rfl
  obtain ⟨fits, coded⟩ := complete_errcode (noErr busy).1 (noErr busy).2 ht
  have status : StatusOk u.status := ⟨by simp [hbusy], coded, errcodeFits_le fits, by simp [hbusy]⟩
  have hidden : HiddenOk u := ⟨fun _ => ⟨frame.snap, frame.cycles⟩, frame.ladder, frame.expTmp⟩
  exact ⟨status, by simp [hbusy], hidden, fun _ => by rw [word]; exact fits⟩

/-- A clock of a busy period that does not end it keeps the invariant (R280). -/
theorem inv_tick {s : State} (h : Inv s) (busy : s.status.busy = true) (hc : 1 < s.cycles) :
    Inv s.tick := by
  intro hreset
  obtain ⟨status, running, ⟨-, hidden⟩, -⟩ := h hreset
  have toCome : 1 ≤ s.tick.cycles := by
    rw [State.tick_cycles]
    omega
  exact ⟨status, fun _ => ⟨(running busy).1, toCome⟩, ⟨by simp [busy], hidden⟩, by simp [busy]⟩

/-- The engine's edge keeps the invariant (R280). -/
theorem inv_engineEdge {s t : State} (h : Inv s) (ht : engineEdge s = .next t) : Inv t := by
  rcases engineEdge_cases s with ⟨-, he⟩ | ⟨busy, hc, he⟩ | ⟨busy, -, he⟩
  · obtain rfl := next_unique he ht
    exact h
  · obtain rfl := next_unique he ht
    exact inv_tick h busy hc
  · exact inv_complete h busy (he.symm.trans ht)

/-- A dropped write sets OVR, of which the invariant does not speak (R238). -/
theorem inv_dropWrite {s : State} (h : Inv s) : Inv s.dropWrite := h

/-- Clearing DONE, ERR or OVR keeps the invariant; ERRCODE stays (R35, R36). -/
theorem inv_writeOneToClear {s : State} (h : Inv s) (v : Word) :
    Inv (s.setStatus (s.status.writeOneToClear v)) := by
  intro hreset
  obtain ⟨⟨excl, coded, bound, noErr⟩, rest⟩ := h hreset
  refine ⟨⟨fun hb => excl ⟨hb.1, ?_⟩, fun he => coded ?_, bound, fun hb => ?_⟩, rest⟩
  · exact (Bool.and_eq_true_iff.1 hb.2).1
  · exact (Bool.and_eq_true_iff.1 he).1
  · simp [noErr hb]

/-- While the unit is idle the invariant does not speak of CTRL (R119). -/
theorem inv_setCtrl {s : State} (h : Inv s) (idle : s.status.busy = false) (c : Ctrl) :
    Inv (s.setCtrl c) := by
  intro hreset
  obtain ⟨status, -, hidden, code⟩ := h hreset
  exact ⟨status, by simp [idle], hidden, code⟩

/-- While the unit is idle the invariant does not speak of the field registers (R119). -/
theorem inv_writeReg {s : State} (h : Inv s) (idle : s.status.busy = false) (i : RegIx) (v : FVal) :
    Inv (s.writeReg i v) := by
  intro hreset
  obtain ⟨status, -, hidden, code⟩ := h hreset
  exact ⟨status, by simp [idle], hidden, code⟩

/-- An accepted command starts with its snapshot, no error and a latency of at least 1 (R43, R119). -/
theorem inv_accept {s : State} (h : Inv s) (w : Word) : Inv (s.accept w) := by
  intro hreset
  obtain ⟨-, -, ⟨-, hidden⟩, -⟩ := h hreset
  refine ⟨?_, fun _ => ⟨rfl, latencyOf_pos w⟩, ⟨?_, hidden⟩, ?_⟩ <;> simp [State.accept, StatusOk]

/-- A bus write keeps the invariant (R70). -/
theorem inv_busWrite {s : State} (h : Inv s) (addr : BusAddr) (v : Word) :
    Inv (busWrite s addr v) := by
  rcases busWrite_cases s addr v with e | ⟨-, e⟩ | e | ⟨idle, e | e | ⟨n, w, e⟩⟩ <;> rw [e]
  · exact h
  · exact inv_dropWrite h
  · exact inv_writeOneToClear h v
  · exact inv_setCtrl h idle _
  · exact inv_accept h v
  · exact inv_writeReg h idle _ _

/-- The bus part of an edge keeps the invariant (R241). -/
theorem inv_busEdge {s : State} (h : Inv s) (req : BusReq) : Inv (busEdge req s) := by
  cases req with
  | idle => exact h
  | read addr => exact h
  | write addr v => exact inv_busWrite h addr v

/-- The engine never stops the cycle (R231). -/
theorem engineEdge_next (s : State) : ∃ t, engineEdge s = .next t := by
  rcases engineEdge_cases s with ⟨-, he⟩ | ⟨-, -, he⟩ | ⟨-, -, he⟩
  · exact ⟨s, he⟩
  · exact ⟨s.tick, he⟩
  · obtain ⟨t, ht, -⟩ := complete_completes s
    exact ⟨t, he.trans ht⟩

/-- Settles O26: the reset state is that of a reset edge. -/
theorem invariantAtReset : Obligations.InvariantAtReset := inv_resetEdge State.reset

/-- Settles O27, by the cases of a step: only a power-on is outside the invariant, and it ends the time
since reset of which the invariant speaks. -/
theorem invariantStep : Obligations.InvariantStep := by
  intro s t h ht
  rcases step_cases s with ⟨-, e⟩ | ⟨-, e⟩ | ⟨pins, -, -, e⟩ | ⟨pins, -, -, e⟩
  · obtain rfl := next_unique e ht
    exact inv_popInput h
  · obtain rfl := next_unique e ht
    exact fun hreset => by cases hreset
  · obtain rfl := next_unique e ht
    exact inv_resetEdge _
  · obtain ⟨u, hu⟩ := engineEdge_next (s.beginCycle pins)
    obtain rfl := next_unique (e u hu) ht
    exact inv_busEdge (inv_engineEdge (inv_beginCycle h pins) hu) pins.bus

end Sys2Proof.Machine
end

section
/-! SUPPORT. The register window (R63 to R67): which addresses reach which register, the field register
words, and the statements on the window. -/

namespace Sys2Proof.Machine

/-! ### The rows of the map (R63) -/

/-- The word addresses of a row of R63: its byte addresses divided by 4. -/
def WindowReg.Spans : WindowReg → Nat → Prop
  | .id, k => k = 0
  | .version, k => k = 1
  | .ctrl, k => k = 2
  | .status, k => k = 3
  | .cmd, k => k = 4
  | .field n w, k => k = 256 + 8 * n.val + w.val
  | .reserved, k => (5 ≤ k ∧ k < 256) ∨ 512 ≤ k

/-- An address lies in the row that it decodes to. -/
theorem windowReg_spans (a : BusAddr) : (windowReg a).Spans a.toNat := by
  unfold windowReg
  split_ifs <;> simp only [WindowReg.Spans] <;> omega

/-- An address decodes to the row that it lies in. -/
theorem windowReg_of_spans {a : BusAddr} {r : WindowReg} (h : r.Spans a.toNat) : windowReg a = r := by
  cases r <;> simp only [WindowReg.Spans] at h
  case field n w =>
    have inside : 256 ≤ a.toNat ∧ a.toNat < 512 := by omega
    have hn : (a.toNat - 256) / 8 = n.val := by omega
    have hw : a.toNat % 8 = w.val := by omega
    rw [windowReg, if_neg (by omega), if_neg (by omega), if_neg (by omega), if_neg (by omega),
      if_neg (by omega), dif_pos inside]
    simp only [hn, hw]
  case reserved =>
    rw [windowReg, if_neg (by omega), if_neg (by omega), if_neg (by omega), if_neg (by omega),
      if_neg (by omega), dif_neg (by omega)]
  all_goals simp [windowReg, h]

theorem windowReg_eq_iff {a : BusAddr} {r : WindowReg} : windowReg a = r ↔ r.Spans a.toNat :=
  ⟨fun h => h ▸ windowReg_spans a, windowReg_of_spans⟩

/-- A row other than the reserved one has one address only (R65). -/
theorem WindowReg.Spans.unique {r : WindowReg} {j k : Nat} (hj : r.Spans j) (hk : r.Spans k) :
    j = k ∨ r = .reserved := by
  cases r
  case reserved => exact .inr rfl
  all_goals exact .inl (hj.trans hk.symm)

/-! ### The reserved addresses (R66) -/

/-- The reserved ranges of the map, in byte addresses (R63). -/
theorem windowReg_eq_reserved {a : BusAddr}
    (h : (0x014 ≤ 4 * a.toNat ∧ 4 * a.toNat ≤ 0x3FC) ∨ 0x800 ≤ 4 * a.toNat) :
    windowReg a = .reserved := by
  refine windowReg_of_spans ?_
  simp only [WindowReg.Spans]
  omega

theorem busRead_of_reserved {a : BusAddr} (h : windowReg a = .reserved) (s : State) :
    busRead s a = 0 := by
  simp only [busRead, h]

theorem busWrite_of_reserved {a : BusAddr} (h : windowReg a = .reserved) (s : State) (v : Word) :
    busWrite s a v = s := by
  simp only [busWrite, h]

/-! ### The field register words (R64) -/

/-- Word w of register n is at word address 0x100 + 8n + w. -/
theorem windowReg_field (n : RegIx) (w : Fin 8) :
    windowReg (BitVec.ofNat 10 (0x100 + 8 * n.val + w.val)) = .field n w := by
  refine windowReg_of_spans ?_
  simp only [WindowReg.Spans, BitVec.toNat_ofNat]
  omega

/-- Its byte address is 0x400 + 32n + 4w. -/
theorem wordAddr_field (n : RegIx) (w : Fin 8) :
    wordAddr (BitVec.ofNat 12 (0x400 + 32 * n.val + 4 * w.val)) =
      BitVec.ofNat 10 (0x100 + 8 * n.val + w.val) := by
  refine BitVec.eq_of_toNat_eq ?_
  simp only [wordAddr, BitVec.extractLsb'_toNat, BitVec.toNat_ofNat, Nat.shiftRight_eq_div_pow]
  omega

theorem busWrite_field (s : State) (n : RegIx) (w : Fin 8) (v : Word) :
    busWrite s (BitVec.ofNat 10 (0x100 + 8 * n.val + w.val)) v =
      if s.status.busy then s.dropWrite else s.writeReg n (replaceWord s.f[n.val] w v) := by
  simp only [busWrite, windowReg_field]

theorem memRead_field (s : State) (n : RegIx) (w : Fin 8) :
    memRead s (BitVec.ofNat 12 (0x400 + 32 * n.val + 4 * w.val)) =
      if s.status.busy then 0 else wordOf s.f[n.val] w := by
  simp only [memRead, wordAddr_field, busRead, windowReg_field]

theorem memWrite_field (s : State) (n : RegIx) (w : Fin 8) (v : Word) :
    memWrite s (BitVec.ofNat 12 (0x400 + 32 * n.val + 4 * w.val)) v =
      if s.status.busy then s.dropWrite else s.writeReg n (replaceWord s.f[n.val] w v) := by
  rw [memWrite, wordAddr_field, busWrite_field]

/-- The bits of a register with one word replaced (R64). -/
theorem getLsbD_replaceWord (x : FVal) (w : Fin 8) (v : Word) {j : Nat} (hj : j < 256) :
    (replaceWord x w v).getLsbD j =
      if 32 * w.val ≤ j ∧ j < 32 * w.val + 32 then v.getLsbD (j - 32 * w.val) else x.getLsbD j := by
  have mask : (0xffffffff#256) = (BitVec.allOnes 32).setWidth 256 := rfl
  simp only [replaceWord, mask, BitVec.getLsbD_or, BitVec.getLsbD_and, BitVec.getLsbD_not,
    BitVec.getLsbD_shiftLeft, BitVec.getLsbD_setWidth, BitVec.getLsbD_allOnes]
  by_cases below : j < 32 * w.val
  · have outside : ¬(32 * w.val ≤ j ∧ j < 32 * w.val + 32) := by omega
    simp [hj, below, outside]
  · have low : j - 32 * w.val < 256 := by omega
    by_cases above : j < 32 * w.val + 32
    · have inside : 32 * w.val ≤ j ∧ j < 32 * w.val + 32 := by omega
      have lane : j - 32 * w.val < 32 := by omega
      simp [hj, below, low, inside, lane]
    · have outside : ¬(32 * w.val ≤ j ∧ j < 32 * w.val + 32) := by omega
      have top : v.getLsbD (j - 32 * w.val) = false := BitVec.getLsbD_of_ge _ _ (by omega)
      have lane : ¬j - 32 * w.val < 32 := by omega
      simp [hj, below, low, outside, top, lane]

/-- The word written is the word read back (R64). -/
theorem wordOf_replaceWord (x : FVal) (w : Fin 8) (v : Word) : wordOf (replaceWord x w v) w = v := by
  refine BitVec.eq_of_getLsbD_eq fun i hi => ?_
  have inside : 32 * w.val ≤ 32 * w.val + i ∧ 32 * w.val + i < 32 * w.val + 32 := by omega
  rw [wordOf, BitVec.getLsbD_extractLsb', getLsbD_replaceWord x w v (by omega), if_pos inside,
    Nat.add_sub_cancel_left]
  simp [hi]

/-- Lane l of word w holds the byte at bit 32w + 8l (R67). -/
theorem wordOf_lane (x : FVal) (w : Fin 8) {l : Nat} (hl : l < 4) :
    (wordOf x w).toNat / 2 ^ (8 * l) % 256 = x.toNat / 2 ^ (32 * w.val + 8 * l) % 256 := by
  have split : 2 ^ 32 = 2 ^ (8 * l) * 2 ^ (32 - 8 * l) := by
    rw [← pow_add]
    congr 1
    omega
  have byte : 256 ∣ 2 ^ (32 - 8 * l) := pow_dvd_pow 2 (show 8 ≤ 32 - 8 * l by omega)
  rw [wordOf, BitVec.extractLsb'_toNat, Nat.shiftRight_eq_div_pow, split, Nat.mod_mul_right_div_self,
    Nat.mod_mod_of_dvd _ byte, Nat.div_div_eq_div_mul, ← pow_add]

/-! ### The statements -/

/-- Settles O6: an address decodes to a row exactly if it lies in it, and only the reserved row has two
addresses. -/
theorem addressMap : Obligations.AddressMap := by
  refine ⟨fun a => ?_, fun a b hab => ?_⟩
  · have bound := a.isLt
    simp only [windowReg_eq_iff, WindowReg.Spans]
    exact ⟨by omega, by omega, by omega, by omega, by omega, by omega, fun n w => by omega⟩
  · have ha := windowReg_spans a
    rw [hab] at ha ⊢
    exact (ha.unique (windowReg_spans b)).imp_left BitVec.eq_of_toNat_eq

/-- Settles O7: these addresses decode to the reserved row. -/
theorem reservedAddresses : Obligations.ReservedAddresses := fun s _ v h =>
  have row := windowReg_eq_reserved h
  ⟨busRead_of_reserved row s, busWrite_of_reserved row s v⟩

/-- Settles O12: an idle write is a register write of the register with one word replaced. -/
theorem fieldWindow : Obligations.FieldWindow := by
  intro s n w v idle
  simp only [memRead_field, memWrite_field, idle, Bool.false_eq_true, if_false]
  refine ⟨rfl, fun j hj => ?_, fun m hm => ?_, rfl⟩
  · rw [State.writeReg_get, if_pos rfl, getLsbD_replaceWord _ _ _ hj]
  · rw [State.writeReg_get, if_neg hm.symm]

/-- Settles O13: byte k stands at bit 32 · (k / 4) + 8 · (k mod 4). -/
theorem byteLanes : Obligations.ByteLanes := by
  intro s n k idle
  have word := memRead_field s n ⟨k.val / 4, by omega⟩
  have place : 2 ^ (32 * (k.val / 4) + 8 * (k.val % 4)) = 256 ^ k.val := by
    rw [show 256 = 2 ^ 8 from rfl, ← pow_mul]
    congr 1
    omega
  rw [word, idle, if_neg Bool.false_ne_true, wordOf_lane _ _ (Nat.mod_lt _ (by decide)), place]

/-- Settles O14, row by row of R70. -/
theorem busyAccess : Obligations.BusyAccess := by
  intro s v busy
  have drop : s.dropWrite = { s with status := { s.status with ovr := true } } := rfl
  refine ⟨fun n w => ⟨?_, ?_⟩, ?_, ?_, memWrite_status s v, memRead_id s, memRead_version s,
    Ctrl.toNat_toWord s.ctrl, memRead_status s, memRead_cmd s, memWrite_id s v, memWrite_version s v,
    fun a => reservedAddresses s a v⟩
  · rw [memRead_field, if_pos busy]
  · rw [memWrite_field, if_pos busy, drop]
  · rw [memWrite_ctrl, if_pos busy, drop]
  · rw [memWrite_cmd, if_pos busy, drop]

end Sys2Proof.Machine
end

section
/-! SUPPORT. The read data and the cycle (R62, R72): what the read data of a cycle has no effect on, the
completion edge with its bus transaction (R241), and the statements on them. -/

namespace Sys2Proof.Machine

open Sys2Proof.Safety

/-! ### The read data is read by nothing (R62) -/

/-- bus_rdata replaced. -/
def State.setRdata (s : State) (d : Option Word) : State := { s with rdata := d }

@[simp] theorem State.setRdata_status (s : State) (d : Option Word) :
    (s.setRdata d).status = s.status := rfl
@[simp] theorem State.setRdata_cycles (s : State) (d : Option Word) :
    (s.setRdata d).cycles = s.cycles := rfl

/-- The registers and STATUS fix what a completion leaves: the frame gives all the rest. -/
theorem completion_unique {s t u : State} (ht : CompletionFrame s t) (hu : CompletionFrame s u)
    (hf : t.f = u.f) (hs : t.status = u.status) : t = u := by
  obtain ⟨a1, a2, a3, a4, a5, a6, a7, a8, a9, a10, a11⟩ := ht
  obtain ⟨b1, b2, b3, b4, b5, b6, b7, b8, b9, b10, b11⟩ := hu
  cases t
  cases u
  simp_all

/-- A completion carries the read data along. -/
theorem complete_setRdata {s t : State} (h : complete s = .next t) (d : Option Word) :
    complete (s.setRdata d) = .next (t.setRdata d) := by
  obtain ⟨t', ht, frame, -⟩ := complete_completes s
  obtain ⟨u, hu, frame', -⟩ := complete_completes (s.setRdata d)
  obtain ⟨v, w, hv, hw, hf, hs⟩ := complete_congr (s := s) (s' := s.setRdata d) rfl rfl rfl
  obtain rfl := next_unique ht h
  obtain rfl := next_unique hv h
  obtain rfl := next_unique hw hu
  have carried : CompletionFrame (s.setRdata d) (v.setRdata d) := { frame with rdata := rfl }
  rw [hu, completion_unique carried frame' hf hs]

/-- The engine's edge carries the read data along (R280). -/
theorem engineEdge_setRdata {s t : State} (h : engineEdge s = .next t) (d : Option Word) :
    engineEdge (s.setRdata d) = .next (t.setRdata d) := by
  unfold engineEdge at h ⊢
  rw [State.setRdata_status, State.setRdata_cycles]
  split_ifs at h ⊢
  · exact complete_setRdata h d
  · cases h
    rfl
  · cases h
    rfl

/-! ### The step of a clock cycle (R241, R270) -/

theorem step_reset {s : State} {pins : Pins} (hin : s.nextInput = .cycle pins)
    (low : pins.rstN = false) : step s = .next (s.beginCycle pins).resetEdge := by
  simp [step, eventStep, hin, cycleStep, low]

theorem step_cycle {s t : State} {pins : Pins} (hin : s.nextInput = .cycle pins)
    (high : pins.rstN = true) (ht : engineEdge (s.beginCycle pins) = .next t) :
    step s = .next (busEdge pins.bus t) := by
  simp [step, eventStep, hin, cycleStep, high, ht]

/-- The edge that ends a busy period: the completion, which does not see the bus, and then the bus
transaction on what it leaves (R241, R280). -/
theorem step_completionEdge {s t : State} {req : BusReq} {rest : List Input}
    (hin : s.inputs = .cycle { rstN := true, bus := req } :: rest) (busy : s.status.busy = true)
    (last : s.cycles ≤ 1)
    (ht : complete { s with inputs := rest, rdata := none, rstPrev := false } = .next t) :
    step s = .next (busEdge req (t.setRdata (readData s { rstN := true, bus := req }))) := by
  have next : s.nextInput = .cycle { rstN := true, bus := req } := by rw [State.nextInput, hin]
  have edge : engineEdge { s with inputs := rest, rdata := none, rstPrev := false } = .next t := by
    rw [engineEdge, if_pos busy, if_pos last, ht]
  refine step_cycle next rfl ?_
  rw [State.beginCycle, hin]
  exact engineEdge_setRdata edge _

/-! ### The statements -/

/-- Settles O15: the two cycles begin in states that differ in the read data alone, which the engine's
edge carries along and a reset edge keeps. -/
theorem readsHaveNoSideEffect : Obligations.ReadsHaveNoSideEffect := by
  intro s a r rest
  cases r with
  | false => exact ⟨_, _, step_reset rfl rfl, step_reset rfl rfl, rfl⟩
  | true =>
    obtain ⟨t, ht⟩ := engineEdge_next { s with inputs := rest, rdata := none, rstPrev := false }
    have withRead := engineEdge_setRdata ht (some (busRead s a))
    exact ⟨_, t, step_cycle (pins := ⟨true, .read a⟩) rfl rfl withRead,
      step_cycle (pins := ⟨true, .idle⟩) rfl rfl ht, rfl⟩

/-- Settles O18, by the cases of a step: the engine's edge always answers. -/
theorem stepNeverStops : Obligations.StepNeverStops := by
  intro s
  rcases step_cases s with ⟨-, e⟩ | ⟨-, e⟩ | ⟨pins, -, -, e⟩ | ⟨pins, -, -, e⟩
  · exact ⟨_, e⟩
  · exact ⟨_, e⟩
  · exact ⟨_, e⟩
  · obtain ⟨t, ht⟩ := engineEdge_next (s.beginCycle pins)
    exact ⟨_, e t ht⟩

/-- Settles O19: the bus transaction finds the completed state, which is idle, so that every write is
performed. -/
theorem completionBeforeBusWrite : Obligations.CompletionBeforeBusWrite := by
  intro s req rest hin busy last
  obtain ⟨t, ht, frame, idle, done, ovr⟩ :=
    complete_completes { s with inputs := rest, rdata := none, rstPrev := false }
  have noData : t.setRdata none = t := by
    rw [← show t.rdata = none from frame.rdata]
    rfl
  have write (a : BusAddr) (v : Word) :
      busEdge (.write a v) (t.setRdata (readData s { rstN := true, bus := .write a v })) =
        busWrite t a v := congrArg (busWrite · a v) noData
  refine ⟨t, _, ht, step_completionEdge hin busy last ht, idle, done, ?_, ?_, ?_, ?_, ?_⟩
  · rintro a rfl
    rfl
  · rintro w rfl
    have accepted : busWrite t 4 w = t.accept w := by
      rw [show busWrite t 4 w = memWrite t 0x010#12 w from rfl, memWrite_cmd, idle]
      rfl
    rw [write, accepted]
    exact ⟨rfl, rfl, rfl, rfl, rfl, ovr⟩
  · rintro v rfl hv
    rw [write, show busWrite t 3 v = memWrite t 0x00C#12 v from rfl, memWrite_status]
    exact ⟨by simp [hv], rfl⟩
  · rintro v rfl
    rw [write, show busWrite t 2 v = memWrite t 0x008#12 v from rfl, memWrite_ctrl, idle]
    rfl
  · rintro n w v rfl
    rw [write, busWrite_field, idle, if_neg Bool.false_ne_true, State.writeReg_get, if_pos rfl]
    exact ⟨wordOf_replaceWord _ w v, rfl⟩

end Sys2Proof.Machine
end

section
/-! SUPPORT. Decode and encode are inverse (30_encoding R91 to R96), and illegal operands fail (R233). -/

namespace Sys2Proof

open Sys2Proof.Claims

/-! ### Encode and the rows of R94 -/

/-- The word of a command is built from operand fields that select the command's row of R94 and leave
its unused fields zero (R91, R93). -/
theorem encode_selects_row (i : Instr) : ∃ rd ra rb row,
    encode i = encodeFields i.opcode rd ra rb ∧ opEntry i.opcode rd ra rb = some (row, i) ∧
      row.rd.reservedOk rd = true ∧ row.ra.reservedOk ra = true ∧ row.rb.reservedOk rb = true := by
  cases i <;> exact ⟨_, _, _, _, rfl, rfl, rfl, rfl, rfl⟩

/-- What the encoding holds in a field of some kind for an operand: nothing in an unused one (R93). -/
def FieldKind.encoded : FieldKind → RegIx → RegIx
  | .unused, _ => 0
  | _, v => v

/-- A field that passes the check of R93 is what the encoding holds there. -/
theorem FieldKind.encoded_of_reservedOk {k : FieldKind} {v : RegIx} (h : k.reservedOk v = true) :
    k.encoded v = v := by
  cases k with
  | unused => exact (Fin.ext (by simpa [reservedOk] using h) : v = 0).symm
  | _ => rfl

/-- The command that a row makes of operand fields is encoded with those that the row uses (R91, R94). -/
theorem encode_of_opEntry {op : BitVec 6} {rd ra rb : RegIx} {row : OpRow} {i : Instr}
    (h : opEntry op rd ra rb = some (row, i)) :
    encode i = encodeFields op (row.rd.encoded rd) (row.ra.encoded ra) (row.rb.encoded rb) := by
  obtain ⟨rfl, -⟩ := opEntry_eq_some h
  unfold opEntry at h
  split at h <;> cases h <;> rfl

/-! ### What makes decode answer a command or ILLEGAL_OPCODE (R96) -/

/-- The converse of `decode_ok`: the row, the zero fields and the legal operands make decode answer
the row's command. -/
theorem decode_eq_ok {w : Word} {row : OpRow} {i : Instr}
    (hrow : opEntry (opField w) (rdField w) (raField w) (rbField w) = some (row, i))
    (hres : resField w = 0) (hrd : row.rd.reservedOk (rdField w) = true)
    (hra : row.ra.reservedOk (raField w) = true) (hrb : row.rb.reservedOk (rbField w) = true)
    (legal : i.wellFormed = true) : decode w = .ok i := by
  rw [(opEntry_eq_some hrow).2] at legal
  simp [decode, hrow, hres, hrd, hra, hrb, legal]

/-- The opcode check comes first and is the only source of its code (R96). -/
theorem decode_illegalOpcode_iff (w : Word) : decode w = .error .illegalOpcode ↔
    opEntry (opField w) (rdField w) (raField w) (rbField w) = none := by
  unfold decode
  split
  · next undefined => simp [undefined]
  · next defined =>
    simp only [defined, reduceCtorEq, iff_false]
    split
    · simp
    · split <;> simp

/-- The opcodes without a row are those of R95's four ranges. -/
theorem opEntry_eq_none_iff (op : BitVec 6) (rd ra rb : RegIx) : opEntry op rd ra rb = none ↔
    (0x0C ≤ op.toNat ∧ op.toNat ≤ 0x0F) ∨ (0x13 ≤ op.toNat ∧ op.toNat ≤ 0x1F) ∨
    (0x22 ≤ op.toNat ∧ op.toNat ≤ 0x2F) ∨ (0x33 ≤ op.toNat ∧ op.toNat ≤ 0x3F) := by
  have := op.isLt
  unfold opEntry
  split
  case h_21 =>
    simp only [true_iff, imp_false] at *
    omega
  all_goals
    simp only [reduceCtorEq, false_iff]
    omega

theorem wOp_eq_opField (w : Word) : wOp w = (opField w).toNat := by
  simp [wOp, opField]

/-! ### The statements on the encoding -/

/-- Settles O3: the encoding holds fields that select the command's own row, with res and the unused
fields zero, and well-formedness is the operand check of that row. -/
theorem decodeEncode : Obligations.DecodeEncode := by
  intro i legal
  obtain ⟨rd, ra, rb, row, henc, hrow, hrd, hra, hrb⟩ := encode_selects_row i
  rw [henc]
  apply decode_eq_ok (row := row) <;>
    simp only [*, opField_encodeFields, rdField_encodeFields, raField_encodeFields,
      rbField_encodeFields, resField_encodeFields]

/-- Settles O4: a word that decodes has res = 0, so it is the encoding of its own fields, and the
command was made from those that are in use, the others being zero. -/
theorem encodeDecode : Obligations.EncodeDecode := by
  intro w i h
  obtain ⟨row, hrow, hres, hrd, hra, hrb, -⟩ := decode_ok h
  refine ⟨?_, decode_ok_wellFormed h⟩
  rw [encode_of_opEntry hrow, FieldKind.encoded_of_reservedOk hrd, FieldKind.encoded_of_reservedOk hra,
    FieldKind.encoded_of_reservedOk hrb, encodeFields_fields hres]

/-- Settles O2: only the opcode field decides whether a word has a row. -/
theorem undefinedOpcodesIllegal : Obligations.UndefinedOpcodesIllegal := by
  intro w
  rw [decode_illegalOpcode_iff, opEntry_eq_none_iff, wOp_eq_opField]

/-- Settles O1, by evaluation. -/
theorem encodedExamplesDecode : Obligations.EncodedExamplesDecode := by
  unfold Obligations.EncodedExamplesDecode
  decide

end Sys2Proof

namespace Sys2Proof.Machine

open Sys2Proof.Claims

/-! ### Illegal operands (R233) -/

/-- The constant ROM ends at index 12 (R148). -/
theorem krom_eq_none {k : RegIx} (h : 12 < k.val) : krom k = none :=
  List.getElem?_eq_none h

/-- A command that is not well formed fails with BAD_OPERAND (R92, R233). -/
theorem exec_of_not_wellFormed {i : Instr} (s : State) (h : i.wellFormed = false) :
    exec i s = failWith s .badOperand := by
  have illegal : ¬i.wellFormed = true := Bool.eq_false_iff.1 h
  cases i with
  | ldk rd k =>
    have hk : krom k = none := krom_eq_none (by simpa using of_decide_eq_false h)
    rw [exec, execLdk, hk]
  | lstep rd ra rb => exact if_neg illegal
  | edadd rd ra rb => exact if_neg illegal
  | eddbl rd ra => exact if_neg illegal
  | edenc rd ra => exact if_neg illegal
  | eddec rd ra => exact if_neg illegal
  | _ => exact absurd rfl illegal

/-- Settles O32: each of the forms is a command that is not well formed. -/
theorem badOperandForms : Obligations.BadOperandForms := by
  intro rd ra rb s
  have fails {i : Instr} (illegal : i.wellFormed = false) : Fails i s 3 :=
    fails_of_failWith (exec_of_not_wellFormed s illegal)
  refine ⟨fun h => fails ?_, fun h => fails ?_, fun h => fails ?_, fun h => fails ?_,
    fun h => fails ?_, fun h => fails ?_⟩
  all_goals
    simp only [Instr.wellFormed, Bool.and_eq_false_iff, beq_eq_false_iff_ne, decide_eq_false_iff_not]
    omega

end Sys2Proof.Machine
end

section
/-! SUPPORT. How the words with one opcode decode, from that opcode's row of R94 (R90 to R96, R233). -/

namespace Sys2Proof

open Sys2Proof.Claims

/-! ### The fields of a word, in the terms of the statements (R91) -/

theorem wRd_eq_rdField (w : Word) : wRd w = rdField w := by
  simp [wRd, rdField, Fin.ext_iff, Nat.shiftRight_eq_div_pow]

theorem wRa_eq_raField (w : Word) : wRa w = raField w := by
  simp [wRa, raField, Fin.ext_iff, Nat.shiftRight_eq_div_pow]

theorem wRb_eq_rbField (w : Word) : wRb w = rbField w := by
  simp [wRb, rbField, Fin.ext_iff, Nat.shiftRight_eq_div_pow]

theorem wRes_eq_zero_iff (w : Word) : wRes w = 0 ↔ resField w = 0 := by
  have := w.isLt
  have zero : (0 : BitVec 11).toNat = 0 := rfl
  rw [resField, ← BitVec.toNat_inj, BitVec.extractLsb'_toNat, Nat.shiftRight_eq_div_pow, wRes, zero]
  omega

theorem opField_of_wOp {w : Word} {n : Nat} (h : wOp w = n) : opField w = BitVec.ofNat 6 n := by
  rw [← h, wOp_eq_opField, BitVec.ofNat_toNat, BitVec.setWidth_eq]

/-- A word has a bit set above its opcode exactly if one of its other fields is not zero (R93, R120). -/
theorem toNat_div_64_ne_zero_iff (w : Word) :
    w.toNat / 64 ≠ 0 ↔ wRes w ≠ 0 ∨ wRd w ≠ 0 ∨ wRa w ≠ 0 ∨ wRb w ≠ 0 := by
  have hop := (opField w).isLt
  have sum := fields_toNat w
  rw [ne_eq (wRes w), wRes_eq_zero_iff, wRd_eq_rdField, wRa_eq_raField, wRb_eq_rbField,
    ← BitVec.toNat_inj, BitVec.ofNat_eq_ofNat, BitVec.toNat_ofNat]
  simp only [ne_eq, Fin.ext_iff, Fin.val_zero]
  omega

/-! ### The rule of one row -/

/-- An unused field passes the check of R93 when it is zero, every other field always. -/
theorem FieldKind.reservedOk_iff (k : FieldKind) (v : RegIx) :
    k.reservedOk v = true ↔ (k = .unused → v = 0) := by
  cases k <;>
    simp only [reservedOk, Fin.ext_iff, beq_iff_eq, reduceCtorEq, true_imp_iff, false_imp_iff,
      Fin.val_zero]

/-- The reserved fields of a word that has a row: res, and the operand fields that the row does not
use (R93). -/
def OpRow.reservedUsed (row : OpRow) (w : Word) : Prop :=
  wRes w ≠ 0 ∨ (row.rd = .unused ∧ wRd w ≠ 0) ∨ (row.ra = .unused ∧ wRa w ≠ 0) ∨
    (row.rb = .unused ∧ wRb w ≠ 0)

/-- The condition under which decode goes on to the operands is that no reserved field is used. -/
theorem OpRow.not_reservedUsed_iff (row : OpRow) (w : Word) : ¬row.reservedUsed w ↔
    (resField w == 0 && row.rd.reservedOk (rdField w) && row.ra.reservedOk (raField w)
      && row.rb.reservedOk (rbField w)) = true := by
  simp only [reservedUsed, wRd_eq_rdField, wRa_eq_raField, wRb_eq_rbField, wRes_eq_zero_iff, ne_eq,
    not_or, not_and, not_not, Bool.and_eq_true, beq_iff_eq, FieldKind.reservedOk_iff, and_assoc]

/-- The words of an opcode with a row decode by the row's reserved fields, then by whether the command
it makes has legal operands (R93, R96). -/
theorem wordRule_of_row {n : Nat} {row : OpRow} {make : RegIx → RegIx → RegIx → Instr}
    {reserved bad : Word → Prop}
    (hrow : ∀ rd ra rb, opEntry (BitVec.ofNat 6 n) rd ra rb = some (row, make rd ra rb))
    (hreserved : ∀ w, reserved w ↔ row.reservedUsed w)
    (hbad : ∀ w, bad w ↔ (make (wRd w) (wRa w) (wRb w)).wellFormed = false) :
    WordRule n reserved bad fun w => make (wRd w) (wRa w) (wRb w) := by
  intro w hw
  have entry := hrow (wRd w) (wRa w) (wRb w)
  have operands := (opEntry_eq_some entry).2
  rw [← opField_of_wOp hw] at entry
  rw [hreserved w, hbad w, operands]
  have fieldsZero := row.not_reservedUsed_iff w
  simp only [wRd_eq_rdField, wRa_eq_raField, wRb_eq_rbField] at entry ⊢
  simp only [decode, entry]
  refine ⟨fun used => ?_, fun zero illegal => ?_, fun zero legal => ?_⟩
  · have used := Bool.eq_false_iff.2 (mt fieldsZero.2 (not_not.2 used))
    simp only [used, Bool.not_false, if_true]
  · simp only [fieldsZero.1 zero, illegal, Bool.not_true, Bool.not_false, Bool.false_eq_true, if_true,
      if_false]
  · have legal := Bool.of_not_eq_false legal
    simp only [fieldsZero.1 zero, legal, Bool.not_true, Bool.false_eq_true, if_false]

/-- A row with three registers: only res is reserved, and no operand is illegal. -/
theorem wordRule_of_three_regs {n : Nat} {make : RegIx → RegIx → RegIx → Instr}
    (hrow : ∀ rd ra rb, opEntry (BitVec.ofNat 6 n) rd ra rb =
      some (⟨.reg, .reg, .reg⟩, make rd ra rb)) :
    WordRule n resUsed noneBad fun w => make (wRd w) (wRa w) (wRb w) :=
  wordRule_of_row hrow (by simp [OpRow.reservedUsed, resUsed])
    fun w => by simp [noneBad, (opEntry_eq_some (hrow _ _ _)).2, FieldKind.operandOk]

/-- A row that uses rd and ra: rb and res are reserved. -/
theorem wordRule_of_rd_ra {n : Nat} {row : OpRow} {make : RegIx → RegIx → Instr} {bad : Word → Prop}
    (hrow : ∀ rd ra rb, opEntry (BitVec.ofNat 6 n) rd ra rb = some (row, make rd ra))
    (hrd : row.rd ≠ .unused) (hra : row.ra ≠ .unused) (hrb : row.rb = .unused)
    (hbad : ∀ w, bad w ↔ (make (wRd w) (wRa w)).wellFormed = false) :
    WordRule n rbResUsed bad fun w => make (wRd w) (wRa w) :=
  wordRule_of_row (make := fun rd ra _ => make rd ra) hrow
    (by simp [OpRow.reservedUsed, rbResUsed, hrd, hra, hrb, or_comm]) hbad

/-- A row with two registers: no operand is illegal. -/
theorem wordRule_of_two_regs {n : Nat} {make : RegIx → RegIx → Instr}
    (hrow : ∀ rd ra rb, opEntry (BitVec.ofNat 6 n) rd ra rb =
      some (⟨.reg, .reg, .unused⟩, make rd ra)) :
    WordRule n rbResUsed noneBad fun w => make (wRd w) (wRa w) :=
  wordRule_of_rd_ra hrow (by simp) (by simp) rfl
    fun w => by simp [noneBad, (opEntry_eq_some (hrow _ _ 0)).2, FieldKind.operandOk]

end Sys2Proof
end

section
/-! SUPPORT. The field arithmetic commands on the operand snapshot (40_field R120 to R148). -/

namespace Sys2Proof.Machine

open Sys2Proof.Claims

/-! ### The snapshot in the terms of the statements (R12, R119) -/

theorem toNat_src (s : State) (i : RegIx) : (s.src i).toNat = S s i := rfl

theorem residue_src (s : State) (i : RegIx) : residue (s.src i) = SF s i := rfl

/-! ### Commands with one destination -/

/-- A command that succeeds with one write completes, and its destination holds the value (R231). -/
theorem completes_of_write {i : Instr} {s : State} {rd : RegIx} {v : FVal} {fl : Status → Status}
    {st : Status} {result : State → Prop} (he : exec i s = succeed s [(rd, v)] fl)
    (hst : (fl s.status).finished = st) (hr : ∀ t, D t rd = v.toNat → result t) :
    Completes i s [rd] st result := by
  subst hst
  refine completes_of_succeed he fun t hf => hr t ?_
  simp only [D, hf, State.writeRegs_cons, State.writeRegs_nil, State.writeReg_get, if_true]

/-- CARRY is bit 256 of a sum below 2^257 (R122). -/
theorem carryOut_eq (a b : FVal) : carryOut a b = decide (2 ^ 256 ≤ a.toNat + b.toNat) := by
  have ha := a.isLt
  have hb := b.isLt
  rw [carryOut, Nat.testBit_eq_decide_div_mod_eq]
  exact decide_eq_decide.2 (by omega)

/-- INV writes inv_p of its operand; its temporary leaves no trace (R45, R133). -/
theorem exec_inv (rd ra : RegIx) (s : State) :
    exec (.inv rd ra) s = succeed s [(rd, invP (s.src ra))] Status.keep := by
  rw [exec, execInv_eq, succeed_setExp]

/-- SQRT writes what the machine's root rule yields; its temporary leaves no trace (R45, R136). -/
theorem exec_sqrt (rd ra : RegIx) (s : State) :
    exec (.sqrt rd ra) s =
      succeed s [(rd, (sqrtP (s.src ra)).r)] (Status.setNoroot (sqrtP (s.src ra)).noroot) := by
  rw [exec, execSqrt_eq, succeed_setExp]

/-! ### The statements on commands with one destination or none -/

/-- Settles O34: NOP succeeds with no write. -/
theorem nopCommand : Obligations.NopCommand :=
  ⟨wordRule_of_row (make := fun _ _ _ => .nop) (fun _ _ _ => rfl)
      (fun w => (toNat_div_64_ne_zero_iff w).trans (by simp [OpRow.reservedUsed]))
      (by simp [noneBad, Instr.wellFormed]),
    fun _ => completes_of_succeed (ws := []) (fl := Status.keep) rfl fun _ _ => trivial⟩

/-- Settles O35: the 256-bit sum is the sum mod 2^256, and bit 256 of the sum is the carry. -/
theorem addCommand : Obligations.AddCommand := by
  refine ⟨wordRule_of_three_regs fun _ _ _ => rfl, fun rd ra rb s => ?_⟩
  rw [← toNat_src, ← toNat_src, ← carryOut_eq]
  exact completes_of_write rfl rfl fun t h => h.trans (BitVec.toNat_add _ _)

/-- Settles O36, by the value of the machine's sum mod p. -/
theorem addmCommand : Obligations.AddmCommand := by
  refine ⟨wordRule_of_three_regs fun _ _ _ => rfl, fun rd ra rb s => ?_⟩
  rw [P_eq_fieldP]
  exact completes_of_write rfl rfl fun t h => h.trans (toNat_addP _ _)

/-- Settles O37, by the value of the machine's difference mod p. -/
theorem submCommand : Obligations.SubmCommand := by
  refine ⟨wordRule_of_three_regs fun _ _ _ => rfl, fun rd ra rb s => ?_⟩
  rw [P_eq_fieldP]
  exact completes_of_write rfl rfl fun t h => (congrArg Nat.cast h).trans (toNat_subP _ _)

/-- MULM writes the product mod p (R128). -/
theorem mulm_completes (rd ra rb : RegIx) (s : State) :
    Completes (.mulm rd ra rb) s [rd] (finished s.status) fun t => D t rd = S s ra * S s rb % P := by
  rw [P_eq_fieldP]
  exact completes_of_write rfl rfl fun t h => h.trans (toNat_mulP _ _)

/-- Settles O38, by the value of the machine's product mod p. -/
theorem mulmCommand : Obligations.MulmCommand :=
  ⟨wordRule_of_three_regs fun _ _ _ => rfl, mulm_completes⟩

/-- Settles O39: SQRM is MULM of the value with itself, so it writes the product of the two. -/
theorem sqrmCommand : Obligations.SqrmCommand := by
  refine ⟨wordRule_of_two_regs fun _ _ _ => rfl, fun rd ra s => ⟨rfl, ?_⟩⟩
  rw [pow_two]
  exact mulm_completes rd ra ra s

/-- Settles O40, by the value of the machine's power. -/
theorem invCommand : Obligations.InvCommand := by
  refine ⟨wordRule_of_two_regs fun _ _ _ => rfl, fun rd ra s => ?_⟩
  rw [P_eq_fieldP]
  exact completes_of_write (exec_inv rd ra s) rfl fun t h => h.trans (toNat_invP _)

/-- Settles O44, by the value of the machine's reduction. -/
theorem redCommand : Obligations.RedCommand := by
  refine ⟨wordRule_of_two_regs fun _ _ _ => rfl, fun rd ra s => ?_⟩
  rw [P_eq_fieldP]
  exact completes_of_write rfl rfl fun t h => h.trans (toNat_reduce _)

/-- Settles O45: the operand itself is written. -/
theorem movCommand : Obligations.MovCommand :=
  ⟨wordRule_of_two_regs fun _ _ _ => rfl, fun _ _ _ => completes_of_write rfl rfl fun _ h => h⟩

/-! ### LDK (R147, R148) -/

/-- An index of the ROM names its entry (R92, R148). -/
theorem krom_eq_some {k : RegIx} (h : k.val ≤ 12) : ∃ v, krom k = some v :=
  ⟨_, List.getElem?_eq_getElem (l := kromTable) (show k.val < 13 by omega)⟩

/-- The value of an entry stands at the same place in the table of values. -/
theorem toNat_krom {k : RegIx} {v : FVal} (h : krom k = some v) :
    some v.toNat = (kromTable.map BitVec.toNat)[k.val]? := by
  rw [List.getElem?_map, ← krom, h, Option.map_some]

/-- Settles O47: LDK writes the entry of its index, and the table of values evaluates to the thirteen
numbers of the statement. -/
theorem ldkCommand : Obligations.LdkCommand := by
  refine ⟨wordRule_of_rd_ra (fun _ _ _ => rfl) (by simp) (by simp) rfl (by simp [Instr.wellFormed]),
    fun rd k s hk => ?_⟩
  obtain ⟨v, hv⟩ := krom_eq_some hk
  have he : exec (.ldk rd k) s = succeed s [(rd, v)] Status.keep := by rw [exec, execLdk, hv]
  exact completes_of_write he rfl fun t h => (congrArg some h).trans (toNat_krom hv)

/-! ### CSWAP (R144) -/

/-- CSWAP's writes, its second destination being written last: both registers hold the values of the
snapshot, exchanged or not, also where the two are one register. -/
theorem cswap_writes (s : State) (c : Bool) (rd ra : RegIx) {t : State}
    (hf : t.f = (s.writeRegs [(rd, if c then s.src ra else s.src rd),
      (ra, if c then s.src rd else s.src ra)]).f) :
    t.f[rd.val] = (if c then s.src ra else s.src rd) ∧
      t.f[ra.val] = if c then s.src rd else s.src ra := by
  simp only [hf, State.writeRegs_cons, State.writeRegs_nil, State.writeReg_get, if_true, and_true]
  split
  · next same => rw [same, ite_self]
  · rfl

/-- The condition bit as the statements read it (R144). -/
theorem getLsbD_zero_src (s : State) (i : RegIx) : (s.src i).getLsbD 0 = true ↔ S s i % 2 = 1 := by
  rw [BitVec.getLsbD, Nat.testBit_zero, toNat_src, decide_eq_true_eq]

/-- The mask of a set bit is all ones and exchanges, that of a clear bit is 0 and keeps (R144). -/
theorem xor_masked (n : Nat) (a b : FVal) :
    a ^^^ ((0#256 - BitVec.ofNat 256 (n % 2)) &&& (a ^^^ b)) = if n % 2 = 1 then b else a := by
  rcases Nat.mod_two_eq_zero_or_one n with zero | one
  · simp [zero]
  · have ones : 0#256 - BitVec.ofNat 256 1 = BitVec.allOnes 256 := by decide
    rw [one, ones, BitVec.allOnes_and, ← BitVec.xor_assoc, BitVec.xor_self, BitVec.zero_xor,
      if_pos rfl]

/-- Settles O46: the condition bit selects the operands, and the mask form computes the same
selection from either side. -/
theorem cswapCommand : Obligations.CswapCommand := by
  refine ⟨wordRule_of_three_regs fun _ _ _ => rfl, fun rd ra rb s =>
    completes_of_succeed (ws := [(rd, _), (ra, _)]) (fl := Status.keep) rfl fun t hf => ?_⟩
  obtain ⟨hrd, hra⟩ := cswap_writes s _ rd ra hf
  simp only [getLsbD_zero_src] at hrd hra
  refine ⟨fun one => ?_, fun zero => ?_, hrd.trans (xor_masked _ _ _).symm, hra.trans ?_⟩
  · simp only [D, hrd, hra, one, if_true, toNat_src, and_self]
  · simp only [D, hrd, hra, zero, zero_ne_one, if_false, toNat_src, and_self]
  · rw [BitVec.xor_comm s.snap.f[rd.val], xor_masked]
    rfl

end Sys2Proof.Machine
end

section
/-! SUPPORT. INV and SQRT: an inverse and a square root mod p (40_field R133, R136). -/

namespace Sys2Proof.Machine

open Sys2Proof.Claims

/-! ### Residues as numbers mod p -/

/-- Numbers with one residue have one remainder mod p. -/
theorem natCast_eq_iff {m n : Nat} : (m : F) = n ↔ m % P = n % P := by
  rw [P_eq_fieldP, ZMod.natCast_eq_natCast_iff']

/-! ### INV -/

/-- Settles O41: p is prime, so the power is the inverse in the ring of residues, or 0. -/
theorem invInverts : Obligations.InvInverts := by
  intro rd ra s
  obtain ⟨t, ht, -, -, -, hD⟩ := completes_of_write (exec_inv rd ra s) rfl fun _ => id
  have one : 1 % P = 1 := by decide
  have multiple : residue (s.src ra) = 0 ↔ S s ra % P = 0 := by
    rw [residue_eq_zero, toNat_src, P_eq_fieldP]
  refine ⟨t, ht, fun unit => ?_, fun zero => ?_⟩
  · have inverse := residue_mul_invP (mt multiple.1 unit)
    rw [← one, ← natCast_eq_iff, hD, Nat.cast_mul, Nat.cast_one]
    exact inverse
  · have exponent : fieldP - 2 ≠ 0 := by decide
    rw [hD, (canonical_invP _).toNat_eq_val, residue_invP, multiple.2 zero, zero_pow exponent,
      ZMod.val_zero]

/-! ### SQRT -/

theorem setNoroot_finished (b : Bool) (st : Status) :
    (Status.setNoroot b st).finished = { finished st with noroot := b } := rfl

theorem noroot_sqrtP (a : FVal) : (sqrtP a).noroot = (rootRef (residue a)).isNone := by
  rw [sqrtP_eq]
  cases rootRef (residue a) <;> rfl

theorem toNat_r_sqrtP (a : FVal) : (sqrtP a).r.toNat = ((rootRef (residue a)).getD 0).val := by
  rw [sqrtP_eq]
  cases rootRef (residue a) with
  | none => exact ZMod.val_zero.symm
  | some r => exact toNat_ofResidue r

/-- SQRT writes the canonical value of the root that the rule of R136 gives, or 0, and NOROOT. -/
theorem sqrt_completes (rd ra : RegIx) (s : State) : Completes (.sqrt rd ra) s [rd]
    { finished s.status with noroot := (rootRef (SF s ra)).isNone }
    fun t => D t rd = ((rootRef (SF s ra)).getD 0).val :=
  completes_of_write (exec_sqrt rd ra s) (by rw [noroot_sqrtP, residue_src, setNoroot_finished])
    fun _ h => h.trans (toNat_r_sqrtP _)

/-- Settles O42, by the value of the machine's square-root rule. -/
theorem sqrtCommand : Obligations.SqrtCommand :=
  ⟨wordRule_of_two_regs fun _ _ _ => rfl, sqrt_completes⟩

/-- Settles O43: the root that the rule gives squares to the operand, and the rule gives one for every
square. -/
theorem sqrtSoundComplete : Obligations.SqrtSoundComplete := by
  have : NeZero fieldP := ⟨fieldP_pos.ne'⟩
  intro rd ra s
  obtain ⟨t, ht, -, -, hst, hD⟩ := sqrt_completes rd ra s
  have flag : t.status.noroot = (rootRef (SF s ra)).isNone := by rw [hst]
  refine ⟨t, ht, ?_⟩
  rw [flag, hD]
  cases hr : rootRef (SF s ra) with
  | some r =>
    refine ⟨fun _ => ?_, nofun⟩
    rw [Option.getD_some, ← natCast_eq_iff, Nat.cast_mul, ZMod.natCast_zmod_val, ← pow_two]
    exact rootRef_sq hr
  | none =>
    refine ⟨nofun, fun _ => ⟨ZMod.val_zero, fun r square => ?_⟩⟩
    rw [← natCast_eq_iff, Nat.cast_mul, ← pow_two] at square
    exact rootRef_sq_ne_none r (square ▸ hr)

end Sys2Proof.Machine
end

section
/-! SUPPORT. The algebraic laws of R151, and that the commands on residues read no more of their
operands than the residues (R121). -/

namespace Sys2Proof.Machine

open Sys2Proof.Claims

/-! ### The laws of the operations -/

theorem addP_comm (a b : FVal) : addP a b = addP b a :=
  eq_of_residue_eq (canonical_addP _ _) (canonical_addP _ _) (by simp [add_comm])

theorem mulP_comm (a b : FVal) : mulP a b = mulP b a :=
  eq_of_residue_eq (canonical_mulP _ _) (canonical_mulP _ _) (by simp [mul_comm])

theorem addP_assoc (a b c : FVal) : addP (addP a b) c = addP a (addP b c) :=
  eq_of_residue_eq (canonical_addP _ _) (canonical_addP _ _) (by simp [add_assoc])

theorem mulP_assoc (a b c : FVal) : mulP (mulP a b) c = mulP a (mulP b c) :=
  eq_of_residue_eq (canonical_mulP _ _) (canonical_mulP _ _) (by simp [mul_assoc])

theorem mulP_addP (a b c : FVal) : mulP a (addP b c) = addP (mulP a b) (mulP a c) :=
  eq_of_residue_eq (canonical_mulP _ _) (canonical_addP _ _) (by simp [mul_add])

/-- Subtraction is addition of the negated value (R151). -/
theorem subP_eq_addP (a b : FVal) : subP a b = addP a (subP 0 b) := by
  have zero : residue 0 = 0 := residue_eq_zero.2 rfl
  refine eq_of_residue_eq (canonical_subP _ _) (canonical_addP _ _) ?_
  rw [residue_subP, residue_addP, residue_subP, zero, zero_sub, sub_eq_add_neg]

@[simp] theorem reduce_mod (n : Nat) : reduce (n % fieldP) = reduce n := by
  rw [reduce, Nat.mod_mod, reduce]

theorem reduce_reduce (n : Nat) : reduce (reduce n).toNat = reduce n := by
  rw [toNat_reduce, reduce_mod]

/-! ### The functions of the commands on reduced operands -/

/-- A register value reduced mod p (R11). -/
def reduced (a : FVal) : FVal := reduce a.toNat

@[simp] theorem residue_reduced (a : FVal) : residue (reduced a) = residue a := residue_reduce _

@[simp] theorem toNat_reduced (a : FVal) : (reduced a).toNat = a.toNat % fieldP := toNat_reduce _

@[simp] theorem addP_reduced (a b : FVal) : addP (reduced a) (reduced b) = addP a b :=
  eq_of_residue_eq (canonical_addP _ _) (canonical_addP _ _) (by simp)

@[simp] theorem subP_reduced (a b : FVal) : subP (reduced a) (reduced b) = subP a b :=
  eq_of_residue_eq (canonical_subP _ _) (canonical_subP _ _) (by simp)

@[simp] theorem mulP_reduced_left (a b : FVal) : mulP (reduced a) b = mulP a b :=
  eq_of_residue_eq (canonical_mulP _ _) (canonical_mulP _ _) (by simp)

@[simp] theorem mulP_reduced_right (a b : FVal) : mulP a (reduced b) = mulP a b :=
  eq_of_residue_eq (canonical_mulP _ _) (canonical_mulP _ _) (by simp)

@[simp] theorem invP_reduced (a : FVal) : invP (reduced a) = invP a :=
  eq_of_residue_eq (canonical_invP _) (canonical_invP _) (by simp [residue_invP])

@[simp] theorem sqrtP_reduced (a : FVal) : sqrtP (reduced a) = sqrtP a := by
  rw [sqrtP_eq, sqrtP_eq, residue_reduced]

@[simp] theorem lstepF_reduced (x2 z2 x3 z3 x1 : FVal) :
    lstepF (reduced x2) (reduced z2) (reduced x3) (reduced z3) (reduced x1) = lstepF x2 z2 x3 z3 x1 := by
  simp only [lstepF, addP_reduced, subP_reduced, mulP_reduced_left]

/-- A quad with its four values reduced. -/
def Quad.reduced (q : Quad) : Quad :=
  { x := Machine.reduced q.x, y := Machine.reduced q.y, z := Machine.reduced q.z,
    t := Machine.reduced q.t }

@[simp] theorem edAdd_reduced (p q : Quad) : edAdd p.reduced q.reduced = edAdd p q := by
  simp only [edAdd, Quad.reduced, addP_reduced, subP_reduced, mulP_reduced_left, mulP_reduced_right]

@[simp] theorem edDbl_reduced (p : Quad) : edDbl p.reduced = edDbl p := by
  simp only [edDbl, Quad.reduced, addP_reduced, mulP_reduced_left, mulP_reduced_right]

@[simp] theorem edEncWith_reduced (zi : FVal) (p : Quad) : edEncWith zi p.reduced = edEncWith zi p := by
  simp only [edEncWith, Quad.reduced, mulP_reduced_left]

/-! ### The commands on a reduced snapshot -/

@[simp] theorem src_reducedSnap (s : State) (i : RegIx) : (reducedSnap s).src i = reduced (s.src i) := by
  simp only [reducedSnap, State.src, Vector.getElem_map, P_eq_fieldP, reduced, reduce]

@[simp] theorem Quad.reduced_z (q : Quad) : q.reduced.z = Machine.reduced q.z := rfl

@[simp] theorem srcQuad_reducedSnap (s : State) (i : RegIx) :
    (reducedSnap s).srcQuad i = (s.srcQuad i).reduced := by
  simp only [State.srcQuad, src_reducedSnap, Quad.reduced]

theorem writeRegs_reducedSnap (ws : List (RegIx × FVal)) :
    ∀ s : State, (reducedSnap s).writeRegs ws = reducedSnap (s.writeRegs ws) := by
  induction ws with
  | nil => exact fun _ => rfl
  | cons x ws ih => exact fun s => ih (s.writeReg x.1 x.2)

/-- Completion clears the snapshot, whatever it held. -/
@[simp] theorem succeed_reducedSnap (s : State) (ws : List (RegIx × FVal)) (fl : Status → Status) :
    succeed (reducedSnap s) ws fl = succeed s ws fl := by
  rw [succeed, writeRegs_reducedSnap]
  rfl

@[simp] theorem failWith_reducedSnap (s : State) (c : CmdError) :
    failWith (reducedSnap s) c = failWith s c := rfl

/-- EDENC's two outcomes; its temporary leaves no trace (R45, R210). -/
theorem exec_edenc (rd ra : RegIx) (s : State) : exec (.edenc rd ra) s =
    if isQuadBase ra then
      succeed s [(rd, edEncWith (invP (s.srcQuad ra).z) (s.srcQuad ra))] Status.keep
    else failWith s .badOperand := by
  split
  · next aligned => rw [exec, execEdenc_eq rd ra s aligned, succeed_setExp]
  · next unaligned => rw [exec, execEdenc, if_neg unaligned]

/-- A command on residues ends in one state on its operands and on their reductions (R121, R151). -/
theorem exec_reducedSnap {i : Instr} (s : State) (h : residueCommand i = true) :
    exec i (reducedSnap s) = exec i s := by
  cases i with
  | addm rd ra rb => simp [exec, execAddm]
  | subm rd ra rb => simp [exec, execSubm]
  | mulm rd ra rb => simp [exec, execMulm]
  | sqrm rd ra => simp [exec, execSqrm]
  | inv rd ra => simp [exec_inv]
  | sqrt rd ra => simp [exec_sqrt]
  | red rd ra => simp [exec, execRed]
  | lstep rd ra rb => simp [exec, execLstep]
  | edadd rd ra rb => simp [exec, execEdadd]
  | eddbl rd ra => simp [exec, execEddbl]
  | edenc rd ra => simp [exec_edenc]
  | _ => cases h

/-- Settles O33: values with one residue that are canonical are equal, so the laws are those of the
ring of residues. -/
theorem fieldAlgebra : Obligations.FieldAlgebra :=
  ⟨fieldP_eq, fun a b c => ⟨addP_comm a b, mulP_comm a b, addP_assoc a b c, mulP_assoc a b c,
    mulP_addP a b c, subP_eq_addP a b, reduce_reduce a.toNat⟩, fun _ s h => exec_reducedSnap s h⟩

end Sys2Proof.Machine
end

section
/-! SUPPORT. CLAMP (41_ladder R170): the bits it clears and sets, and the number they make. -/

namespace Sys2Proof.Machine

open Sys2Proof.Claims

/-- CLAMP keeps bits 3 to 253, sets bit 254 and clears the others (R170). -/
theorem testBit_clampV (v : FVal) (i : Nat) : (clampV v).toNat.testBit i =
    (decide (i = 254) || (decide (3 ≤ i ∧ i < 254) && v.toNat.testBit i)) := by
  have low : (7#256).getLsbD i = decide (i < 3) := Nat.testBit_two_pow_sub_one 3 i
  have top (k : Nat) : (1#256 <<< k).getLsbD i = (decide (i < 256) && decide (i = k)) := by
    rw [← BitVec.twoPow_eq, BitVec.getLsbD_twoPow]
    grind
  rw [← BitVec.getLsbD, ← BitVec.getLsbD, clampV]
  simp only [BitVec.getLsbD_or, BitVec.getLsbD_and, BitVec.getLsbD_not, low, top]
  cases h : v.getLsbD i <;> grind

/-- The value of a clamped scalar (R170). -/
theorem toNat_clampV (v : FVal) :
    (clampV v).toNat = 2 ^ 254 + v.toNat % 2 ^ 254 / 8 * 8 := by
  have middle : v.toNat % 2 ^ 254 / 8 * 8 = ((v.toNat % 2 ^ 254) >>> 3) <<< 3 := by
    rw [Nat.shiftLeft_eq, Nat.shiftRight_eq_div_pow]
  have sum := Nat.two_pow_add_eq_or_of_lt (i := 254) (b := v.toNat % 2 ^ 254 / 8 * 8) (by omega) 1
  rw [Nat.mul_one, middle] at sum
  refine Nat.eq_of_testBit_eq fun i => ?_
  rw [middle, sum, testBit_clampV]
  simp only [Nat.testBit_or, Nat.testBit_two_pow, Nat.testBit_shiftLeft, Nat.testBit_shiftRight,
    Nat.testBit_mod_two_pow]
  grind

/-- Settles O48: the range and the divisibility are read off the value. -/
theorem clampCommand : Obligations.ClampCommand := by
  refine ⟨wordRule_of_two_regs fun _ _ _ => rfl, fun rd ra s => completes_of_write rfl rfl fun t h => ?_⟩
  rw [h, toNat_clampV, toNat_src]
  omega

end Sys2Proof.Machine
end

section
/-! SUPPORT. The ladder step and LSTEP in the ring of residues (41_ladder R172, R173). -/

namespace Sys2Proof.Machine

open Sys2Proof.Claims

/-! ### The step (R172) -/

/-- The canonical values of four residues, as what a ladder step returns. -/
def stepOfResidues (q : F4) : StepOut :=
  { x2 := ofResidue q.1, z2 := ofResidue q.2.1, x3 := ofResidue q.2.2.1, z3 := ofResidue q.2.2.2 }

theorem residue_constA24 : residue constA24 = 121665 := rfl

/-- The machine's ladder step is the reference's, with canonical values (R121, R172). -/
theorem lstepF_eq (x2 z2 x3 z3 x1 : FVal) : lstepF x2 z2 x3 z3 x1 =
    stepOfResidues (lstepRef (residue x2, residue z2, residue x3, residue z3) (residue x1)) := by
  simp only [lstepF, stepOfResidues, lstepRef, mulP_eq_ofResidue, residue_addP, residue_subP,
    residue_ofResidue, residue_constA24, StepOut.mk.injEq, ofResidue_inj]
  refine ⟨?_, ?_, ?_, ?_⟩ <;> ring

/-! ### LSTEP (R173) -/

/-- A word with an odd base is the only illegal LSTEP (R92, R233). -/
theorem wellFormed_lstep_eq_false (rd ra rb : RegIx) :
    (Instr.lstep rd ra rb).wellFormed = false ↔ rd.val % 2 ≠ 0 ∨ ra.val % 2 ≠ 0 := by
  simp only [Instr.wellFormed, Bool.and_eq_false_iff, beq_eq_false_iff_ne]

/-- The writes of LSTEP in their order: pair A, then pair B (R173). -/
def pairWrites (rd ra : RegIx) (o : StepOut) : List (RegIx × FVal) :=
  [(rd, o.x2), (rd + 1, o.z2), (ra, o.x3), (ra + 1, o.z3)]

theorem exec_lstep {rd ra : RegIx} (rb : RegIx) (s : State) (hrd : rd.val % 2 = 0)
    (hra : ra.val % 2 = 0) : exec (.lstep rd ra rb) s =
      succeed s (pairWrites rd ra (stepOfResidues
        (lstepRef (SF s rd, SF s (rd + 1), SF s ra, SF s (ra + 1)) (SF s rb)))) Status.keep := by
  have even : (isPairBase rd && isPairBase ra) = true := by simp [isPairBase, hrd, hra]
  rw [exec, execLstep, if_pos even, lstepF_eq]
  rfl

/-- The registers of two pairs are distinct (R22). -/
theorem pairs_disjoint {a b : RegIx} (ha : a.val % 2 = 0) (hb : b.val % 2 = 0) (h : a ≠ b) :
    a ≠ b + 1 ∧ a + 1 ≠ b ∧ a + 1 ≠ b + 1 := by
  simp only [ne_eq, Fin.ext_iff, Fin.val_add] at h ⊢
  omega

/-- LSTEP's writes leave the summed pair in pair B, and the doubled pair in pair A unless it is the
same pair (R119, R173). -/
theorem pairs_of_pairWrites {s t : State} {rd ra : RegIx} {q : F4} (hrd : rd.val % 2 = 0)
    (hra : ra.val % 2 = 0)
    (hf : t.f = (s.writeRegs (pairWrites rd ra (stepOfResidues q))).f) :
    D t ra = q.2.2.1.val ∧ D t (ra + 1) = q.2.2.2.val ∧
      (rd ≠ ra → D t rd = q.1.val ∧ D t (rd + 1) = q.2.1.val) := by
  have written (j : RegIx) :
      t.f[j.val] = (s.writeRegs (pairWrites rd ra (stepOfResidues q))).f[j.val] := by rw [hf]
  simp only [D, written, pairWrites, State.writeRegs_cons, State.writeRegs_nil, State.writeReg_get]
  refine ⟨?_, ?_, fun apart => ?_⟩
  · simp [stepOfResidues]
  · simp [stepOfResidues]
  · obtain ⟨h1, h2, h3⟩ := pairs_disjoint hra hrd apart.symm
    simp [stepOfResidues, apart.symm, h1, h2, h3]

/-- LSTEP on even bases (R173). -/
theorem lstep_completes {rd ra : RegIx} (rb : RegIx) (s : State) (hrd : rd.val % 2 = 0)
    (hra : ra.val % 2 = 0) :
    let o := lstepRef (SF s rd, SF s (rd + 1), SF s ra, SF s (ra + 1)) (SF s rb)
    Completes (.lstep rd ra rb) s [rd, rd + 1, ra, ra + 1] (finished s.status) fun t =>
      D t ra = o.2.2.1.val ∧ D t (ra + 1) = o.2.2.2.val ∧
      (rd ≠ ra → D t rd = o.1.val ∧ D t (rd + 1) = o.2.1.val) :=
  completes_of_succeed (exec_lstep rb s hrd hra) fun _ => pairs_of_pairWrites hrd hra

/-- Settles O49, by the value of the machine's ladder step and the order of its writes. -/
theorem lstepCommand : Obligations.LstepCommand :=
  ⟨wordRule_of_row (fun _ _ _ => rfl) (by simp [OpRow.reservedUsed, resUsed])
    fun _ => (wellFormed_lstep_eq_false _ _ _).symm, fun _ _ rb s => lstep_completes rb s⟩

end Sys2Proof.Machine
end

section
/-! SUPPORT. LADDER in the ring of residues (41_ladder R177): the machine's loop is the reference's
fold, round by round. -/

namespace Sys2Proof.Machine

open Sys2Proof.Claims

/-! ### The rounds of the reference -/

/-- One round of R177 at a bit: the swap it asks for, then the ladder step. The second component is
the bit of the round before. -/
def ladderRound (k : Nat) (x1 : F) (st : F4 × Bool) (t : Nat) : F4 × Bool :=
  (lstepRef (swapRef (st.2 ^^ k.testBit t) st.1) x1, k.testBit t)

/-- The rounds at the bits n − 1 down to 0. -/
def ladderRounds (k : Nat) (x1 : F) (n : Nat) (st : F4 × Bool) : F4 × Bool :=
  (List.range n).reverse.foldl (ladderRound k x1) st

theorem ladderRounds_succ (k : Nat) (x1 : F) (n : Nat) (st : F4 × Bool) :
    ladderRounds k x1 (n + 1) st = ladderRounds k x1 n (ladderRound k x1 st n) := by
  rw [ladderRounds, List.range_succ, List.reverse_concat, List.foldl_cons, ladderRounds]

theorem ladderRef_eq (k : Nat) (x1 : F) : ladderRef k x1 =
    swapRef (ladderRounds k x1 255 ((1, 0, x1, 1), false)).2
      (ladderRounds k x1 255 ((1, 0, x1, 1), false)).1 := rfl

/-- The residue that R177 writes: x2 · inv_p(z2). -/
def ladderOut (k : Nat) (x1 : F) : F := (ladderRef k x1).1 * invF (ladderRef k x1).2.1

/-! ### The machine's working state in residues -/

/-- The two running point pairs as residues, and the swap bit (R177). -/
def LadderWork.residues (w : LadderWork) : F4 × Bool :=
  ((residue w.x2, residue w.z2, residue w.x3, residue w.z3), w.swap)

theorem residues_swapIf (w : LadderWork) (c : Bool) :
    (w.swapIf c).residues = (swapRef c w.residues.1, w.swap) := by
  cases c <;> rfl

theorem residues_ladderIter (k : FVal) (t : Nat) (w : LadderWork) :
    (ladderIter k t w).residues = ladderRound k.toNat (residue w.x1) w.residues t := by
  have swapped := congrArg Prod.fst (residues_swapIf w (w.swap ^^ k.getLsbD t))
  simp only [LadderWork.residues] at swapped
  simp only [ladderIter, lstepF_eq, LadderWork.residues, stepOfResidues, residue_ofResidue, swapped]
  rfl

theorem residues_ladderLoop (k : FVal) (n : Nat) : ∀ w : LadderWork,
    (ladderLoop k n w).residues = ladderRounds k.toNat (residue w.x1) n w.residues := by
  induction n with
  | zero => exact fun _ => rfl
  | succ n ih =>
    intro w
    rw [ladderLoop, ih, residues_ladderIter, ladderRounds_succ]
    rfl

theorem residues_ladderStart (u : FVal) :
    (ladderStart u).residues = ((1, 0, residue u, 1), false) := by
  have zero : residue 0 = 0 := residue_eq_zero.2 rfl
  have one : residue 1 = 1 := by rw [← ofResidue_one, residue_ofResidue]
  simp only [ladderStart, LadderWork.residues, zero, one, residue_reduce]
  rfl

/-- The machine's ladder is the reference's (R177). -/
theorem residues_ladderRun (k u : FVal) :
    (ladderRun k u).residues.1 = ladderRef k.toNat (residue u) := by
  have loop := residues_ladderLoop k 255 (ladderStart u)
  have x1 : residue (ladderStart u).x1 = residue u := residue_reduce u.toNat
  rw [residues_ladderStart, x1] at loop
  rw [ladderRun, residues_swapIf, ladderRef_eq, ← loop]
  rfl

/-! ### LADDER -/

/-- The u operand is masked as R177 says. -/
theorem toNat_srcU (s : State) (i : RegIx) : (s.srcU i).toNat = uOf s i := by
  rw [State.srcU, uOf]
  split
  · exact toNat_encodedY (s.src i)
  · exact toNat_src s i

/-- LADDER writes the canonical value of the reference's; its temporaries leave no trace (R45, R177). -/
theorem exec_ladder (rd ra rb : RegIx) (s : State) : exec (.ladder rd ra rb) s =
    succeed s [(rd, ofResidue (ladderOut (S s ra) (uOf s rb)))] Status.keep := by
  have run := residues_ladderRun (s.src ra) (s.srcU rb)
  rw [residue, toNat_srcU, toNat_src] at run
  rw [exec, execLadder_eq, succeed_setExp, succeed_setLadder, mulP_eq_ofResidue, residue_invP,
    ladderOut, ← run, invF, P_eq_fieldP]
  rfl

/-- What LADDER leaves in its destination (R177). -/
theorem ladder_completes (rd ra rb : RegIx) (s : State) :
    Completes (.ladder rd ra rb) s [rd] (finished s.status)
      fun t => D t rd = (ladderOut (S s ra) (uOf s rb)).val :=
  completes_of_write (exec_ladder rd ra rb s) rfl fun _ h => h.trans (toNat_ofResidue _)

/-- Settles O50: the machine's working state is, in residues, the state of the reference's fold. -/
theorem ladderCommand : Obligations.LadderCommand :=
  ⟨wordRule_of_three_regs fun _ _ _ => rfl, ladder_completes⟩

end Sys2Proof.Machine
end

section
/-! SUPPORT. The corner cases of LADDER (41_ladder R177), as facts of the reference's rounds. -/

namespace Sys2Proof.Machine

open Sys2Proof.Claims

/-! ### What the rounds read of the scalar -/

/-- No round reads bit 255 of k. -/
theorem ladderRounds_mod (k : Nat) (x1 : F) {n : Nat} (hn : n ≤ 255) : ∀ st,
    ladderRounds (k % 2 ^ 255) x1 n st = ladderRounds k x1 n st := by
  induction n with
  | zero => exact fun _ => rfl
  | succ n ih =>
    intro st
    have bit : (k % 2 ^ 255).testBit n = k.testBit n := by
      rw [Nat.testBit_mod_two_pow, decide_eq_true (by omega), Bool.true_and]
    rw [ladderRounds_succ, ladderRounds_succ, ih (by omega), ladderRound, ladderRound, bit]

theorem ladderRef_mod (k : Nat) (x1 : F) : ladderRef (k % 2 ^ 255) x1 = ladderRef k x1 := by
  rw [ladderRef_eq, ladderRef_eq, ladderRounds_mod k x1 le_rfl]

theorem ladderOut_mod (k : Nat) (x1 : F) : ladderOut (k % 2 ^ 255) x1 = ladderOut k x1 := by
  rw [ladderOut, ladderOut, ladderRef_mod]

/-! ### u ≡ 0 -/

/-- Both pairs have a coordinate 0. -/
def Degenerate (q : F4) : Prop := q.1 * q.2.1 = 0 ∧ q.2.2.1 * q.2.2.2 = 0

theorem Degenerate.swapRef {q : F4} (h : Degenerate q) (c : Bool) : Degenerate (swapRef c q) := by
  cases c with
  | false => exact h
  | true => exact h.symm

/-- With x1 = 0 a step from such pairs gives z2 = z3 = 0: E = 4 · x2 · z2. -/
theorem Degenerate.lstepRef {q : F4} (h : Degenerate q) : Degenerate (lstepRef q 0) := by
  obtain ⟨h2, -⟩ := h
  have e : (q.1 + q.2.1) ^ 2 - (q.1 - q.2.1) ^ 2 = 0 := by linear_combination 4 * h2
  simp only [Degenerate, Claims.lstepRef, e, zero_mul, mul_zero, and_self]

theorem degenerate_ladderRounds (k n : Nat) : ∀ st : F4 × Bool, Degenerate st.1 →
    Degenerate (ladderRounds k 0 n st).1 := by
  induction n with
  | zero => exact fun _ h => h
  | succ n ih =>
    intro st h
    rw [ladderRounds_succ]
    exact ih _ (h.swapRef _).lstepRef

theorem invF_zero : invF 0 = 0 := zero_pow (by decide)

/-- u ≡ 0 gives 0 for every scalar (R177). -/
theorem ladderOut_zero_point (k : Nat) : ladderOut k 0 = 0 := by
  have : Fact fieldP.Prime := ⟨fieldP_prime⟩
  have start : Degenerate ((1, 0, 0, 1) : F4) := ⟨mul_zero _, zero_mul _⟩
  have final : Degenerate (ladderRef k 0) := by
    rw [ladderRef_eq]
    exact (degenerate_ladderRounds k 255 _ start).swapRef _
  rw [ladderOut]
  rcases mul_eq_zero.1 final.1 with hx | hz
  · rw [hx, zero_mul]
  · rw [hz, invF_zero, mul_zero]

/-! ### k = 0 and k = 1 -/

/-- The first pair is the point at infinity, the second the point with coordinate x1 (R173). -/
def AtInfinity (x1 : F) (q : F4) : Prop := ∃ z : F, z ≠ 0 ∧ q = (1, 0, x1 * z, z)

theorem residue_four_ne_zero : (4 : F) ≠ 0 := by decide +kernel

/-- A step from the point at infinity stays there: Z of the other pair becomes 4 · x1 · z². -/
theorem AtInfinity.lstepRef {x1 : F} (hx : x1 ≠ 0) {q : F4} (h : AtInfinity x1 q) :
    AtInfinity x1 (lstepRef q x1) := by
  have : Fact fieldP.Prime := ⟨fieldP_prime⟩
  obtain ⟨z, hz, rfl⟩ := h
  refine ⟨4 * x1 * z ^ 2, mul_ne_zero (mul_ne_zero residue_four_ne_zero hx) (pow_ne_zero 2 hz), ?_⟩
  simp only [Claims.lstepRef, Prod.mk.injEq]
  refine ⟨?_, ?_, ?_, ?_⟩ <;> ring

/-- With a scalar of at most one bit, the rounds before the last see zero bits and stay at infinity. -/
theorem ladderRounds_of_le_one {k : Nat} (hk : k ≤ 1) {x1 : F} (hx : x1 ≠ 0) (n : Nat) :
    ∀ q : F4, AtInfinity x1 q → ∃ q', AtInfinity x1 q' ∧
      ladderRounds k x1 (n + 1) (q, false) = ladderRound k x1 (q', false) 0 := by
  induction n with
  | zero => exact fun q h => ⟨q, h, rfl⟩
  | succ n ih =>
    intro q h
    have bit : k.testBit (n + 1) = false := by
      rw [Nat.testBit_succ, show k / 2 = 0 by omega, Nat.zero_testBit]
    have round : ladderRound k x1 (q, false) (n + 1) = (lstepRef q x1, false) := by
      rw [ladderRound, bit]
      rfl
    rw [ladderRounds_succ, round]
    exact ih _ (h.lstepRef hx)

/-- The whole ladder on a scalar of at most one bit is its last round, from infinity. -/
theorem ladderRef_of_le_one {k : Nat} (hk : k ≤ 1) {x1 : F} (hx : x1 ≠ 0) :
    ∃ q, AtInfinity x1 q ∧
      ladderRef k x1 = swapRef (k.testBit 0) (lstepRef (swapRef (k.testBit 0) q) x1) := by
  have start : AtInfinity x1 (1, 0, x1, 1) := ⟨1, by decide +kernel, by rw [mul_one]⟩
  obtain ⟨q, hq, rounds⟩ := ladderRounds_of_le_one hk hx 254 _ start
  refine ⟨q, hq, ?_⟩
  rw [ladderRef_eq, rounds, ladderRound, Bool.false_xor]

/-- k = 0 gives 0: the point at infinity has no affine coordinate (R177). -/
theorem ladderOut_zero_scalar (x1 : F) : ladderOut 0 x1 = 0 := by
  by_cases hx : x1 = 0
  · rw [hx, ladderOut_zero_point]
  · obtain ⟨q, hq, run⟩ := ladderRef_of_le_one zero_le_one hx
    obtain ⟨z, -, stays⟩ := hq.lstepRef hx
    have run : ladderRef 0 x1 = lstepRef q x1 := run
    rw [ladderOut, run, stays, invF_zero, mul_zero]

/-- k = 1 gives u: the last round adds the point at infinity to the other, which leaves 4 · x1² · z²
over 4 · x1 · z² (R177). -/
theorem ladderOut_one (x1 : F) : ladderOut 1 x1 = x1 := by
  have : Fact fieldP.Prime := ⟨fieldP_prime⟩
  by_cases hx : x1 = 0
  · rw [hx, ladderOut_zero_point]
  · obtain ⟨q, ⟨z, hz, rfl⟩, run⟩ := ladderRef_of_le_one le_rfl hx
    have x2 : (ladderRef 1 x1).1 = x1 * (4 * x1 * z ^ 2) := by
      rw [run]
      simp only [Nat.testBit_one_zero, swapRef, lstepRef, if_true]
      ring
    have z2 : (ladderRef 1 x1).2.1 = 4 * x1 * z ^ 2 := by
      rw [run]
      simp only [Nat.testBit_one_zero, swapRef, lstepRef, if_true]
      ring
    rw [ladderOut, x2, z2, mul_assoc,
      mul_invF (mul_ne_zero (mul_ne_zero residue_four_ne_zero hx) (pow_ne_zero 2 hz)), mul_one]

/-- Settles O51: the result is the reference's, which reads no more than bits 254 to 0 of k and the
residue of u, and whose values at the corners stand above. -/
theorem ladderCorners : Obligations.LadderCorners := by
  refine ⟨fun rd ra rb s s' hk hu => ?_, fun rd ra rb s => ?_⟩
  · obtain ⟨t, ht, -, -, -, hD⟩ := ladder_completes rd ra rb s
    obtain ⟨t', ht', -, -, -, hD'⟩ := ladder_completes rd ra rb s'
    refine ⟨t, t', ht, ht', ?_⟩
    rw [hD, hD', natCast_eq_iff.2 hu, ← ladderOut_mod, hk, ladderOut_mod]
  · obtain ⟨t, ht, -, -, -, hD⟩ := ladder_completes rd ra rb s
    refine ⟨t, ht, fun hk => ?_, fun hu => ?_, fun hk => ?_⟩
    · rw [hD, ← ladderOut_mod, hk, ladderOut_zero_scalar, ZMod.val_zero]
    · have zero : (uOf s rb : F) = 0 := by rw [← Nat.cast_zero, natCast_eq_iff, hu, Nat.zero_mod]
      rw [hD, zero, ladderOut_zero_point, ZMod.val_zero]
    · rw [hD, ← ladderOut_mod, hk, ladderOut_one, ZMod.val_natCast, P_eq_fieldP]

end Sys2Proof.Machine
end

section
/-! SUPPORT. The host sequence of R178: each of its commands by that command's own statement, each
round as a round of R177's reference. -/

namespace Sys2Proof.Machine

open Sys2Proof.Claims Sys2Proof.Safety

/-! ### The registers as the sequence reads them -/

/-- f[i] as a residue. -/
def DF (s : State) (i : RegIx) : F := (D s i : F)

theorem DF_of_D_eq_val {s : State} {i : RegIx} {x : F} (h : D s i = x.val) : DF s i = x := by
  have : NeZero fieldP := ⟨fieldP_pos.ne'⟩
  rw [DF, h, ZMod.natCast_zmod_val]

theorem DF_of_D_eq_mod {s : State} {i : RegIx} {n : Nat} (h : D s i = n % P) : DF s i = n := by
  rw [DF, h, natCast_eq_iff, Nat.mod_mod]

/-- The swap bit of the host: bit 0 of its swap register (R178). -/
def swapBit (s : State) (sw : RegIx) : Bool := s.f[sw.val].getLsbD 0

theorem swapBit_of_D_eq_zero {s : State} {sw : RegIx} (h : D s sw = 0) : swapBit s sw = false := by
  have zero : (D s sw).testBit 0 = false := by rw [h, Nat.zero_testBit]
  exact zero

section

variable {s t : State} {ds : List RegIx} (h : OthersKept s t ds) {j : RegIx} (hj : j ∉ ds)

include h hj

theorem DF_of_othersKept : DF t j = DF s j := by rw [DF, D, h j hj, DF, D]

theorem swapBit_of_othersKept : swapBit t j = swapBit s j := by rw [swapBit, h j hj, swapBit]

end

/-- The host writes its swap register over the bus (R178). -/
def setSwap (sw : RegIx) (c : Bool) (s : State) : State := s.writeReg sw (BitVec.ofNat 256 c.toNat)

theorem swapBit_setSwap (sw : RegIx) (c : Bool) (s : State) : swapBit (setSwap sw c s) sw = c := by
  rw [swapBit, setSwap, State.writeReg_get, if_pos rfl]
  cases c <;> rfl

theorem othersKept_setSwap (sw : RegIx) (c : Bool) (s : State) : OthersKept s (setSwap sw c s) [sw] := by
  intro j hj
  rw [setSwap, State.writeReg_get, if_neg fun same => hj (by simp [same])]

/-! ### One command of the host (R98) -/

/-- A command that the host issues reads the registers as they stand, and leaves what its statement
says of a completion (R43, R119). -/
theorem afterCommand_completes {i : Instr} {s : State} {ds : List RegIx} {st : Status}
    {result : State → Prop} (h : Completes i (s.accept (encode i)) ds st result) :
    OthersKept s (afterCommand i s) ds ∧ result (afterCommand i s) := by
  obtain ⟨t, ht, -, kept, -, hr⟩ := h
  have after : afterCommand i s = t := by rw [afterCommand, ht]
  rw [after]
  exact ⟨kept, hr⟩

/-- CSWAP exchanges two registers when the swap bit is set (R144). -/
theorem afterCommand_cswap (i j sw : RegIx) (s : State) :
    OthersKept s (afterCommand (.cswap i j sw) s) [i, j] ∧
      DF (afterCommand (.cswap i j sw) s) i = (if swapBit s sw then DF s j else DF s i) ∧
      DF (afterCommand (.cswap i j sw) s) j = (if swapBit s sw then DF s i else DF s j) := by
  obtain ⟨kept, swap, keep, -⟩ := afterCommand_completes (cswapCommand.2 i j sw (s.accept _))
  have bit := getLsbD_zero_src (s.accept (encode (.cswap i j sw))) sw
  refine ⟨kept, ?_⟩
  cases hc : swapBit s sw with
  | true => exact (swap (bit.1 hc)).imp (congrArg Nat.cast) (congrArg Nat.cast)
  | false =>
    have clear := Nat.mod_two_ne_one.1 (mt bit.2 (Bool.eq_false_iff.1 hc))
    exact (keep clear).imp (congrArg Nat.cast) (congrArg Nat.cast)

/-- INV and MULM divide one register by another (R128, R133). -/
theorem afterCommand_quotient (s : State) {a z i d : RegIx} (hi : i ≠ a) :
    D (afterCommand (.mulm d a i) (afterCommand (.inv i z) s)) d =
      (DF s a * invF (DF s z)).val := by
  obtain ⟨kept, inverse⟩ := afterCommand_completes (invCommand.2 i z (s.accept _))
  obtain ⟨-, product⟩ :=
    afterCommand_completes (mulm_completes d a i ((afterCommand (.inv i z) s).accept _))
  have base : ((D s z % P : Nat) : F) = DF s z := natCast_eq_iff.2 (Nat.mod_mod _ _)
  have den : DF (afterCommand (.inv i z) s) i = invF (DF s z) := by
    rw [DF_of_D_eq_mod inverse, Nat.cast_pow, invF, ← base]
    rfl
  have num : DF (afterCommand (.inv i z) s) a = DF s a :=
    DF_of_othersKept kept (by simpa using hi.symm)
  rw [product, ← num, ← den, DF, DF, ← Nat.cast_mul, ZMod.val_natCast, P_eq_fieldP]
  rfl

/-! ### The two pairs (R178) -/

/-- The registers of the two pairs. -/
def pairRegs (a b : RegIx) : List RegIx := [a, a + 1, b, b + 1]

theorem not_mem_pairRegs {a b j : RegIx} :
    j ∉ pairRegs a b ↔ j ≠ a ∧ j ≠ a + 1 ∧ j ≠ b ∧ j ≠ b + 1 := by
  simp only [pairRegs, List.mem_cons, List.not_mem_nil, or_false, not_or, ne_eq]

/-- The two pairs as residues. -/
def handPairs (a b : RegIx) (s : State) : F4 := (DF s a, DF s (a + 1), DF s b, DF s (b + 1))

/-- The two pairs and the swap bit, what a round works on. -/
def handState (a b sw : RegIx) (s : State) : F4 × Bool := (handPairs a b s, swapBit s sw)

/-- A write of the swap register outside the pairs leaves them. -/
theorem handPairs_setSwap {a b sw : RegIx} (hsw : sw ∉ pairRegs a b) (c : Bool) (s : State) :
    handPairs a b (setSwap sw c s) = handPairs a b s := by
  have kept {j : RegIx} (hj : sw ≠ j) : DF (setSwap sw c s) j = DF s j :=
    DF_of_othersKept (othersKept_setSwap sw c s) (by simpa using hj.symm)
  obtain ⟨h1, h2, h3, h4⟩ := not_mem_pairRegs.1 hsw
  rw [handPairs, kept h1, kept h2, kept h3, kept h4, handPairs]

section

variable {a b x sw : RegIx} (ha : a.val % 2 = 0) (hb : b.val % 2 = 0) (hab : a ≠ b)

include ha hb hab

/-- LSTEP is the reference's step on the pairs, and writes nothing else (R173). -/
theorem afterCommand_lstep (x : RegIx) (s : State) :
    handPairs a b (afterCommand (.lstep a b x) s) = lstepRef (handPairs a b s) (DF s x) ∧
      OthersKept s (afterCommand (.lstep a b x) s) (pairRegs a b) := by
  obtain ⟨kept, b0, b1, pairA⟩ := afterCommand_completes (lstep_completes x (s.accept _) ha hb)
  obtain ⟨a0, a1⟩ := pairA hab
  refine ⟨?_, kept⟩
  rw [handPairs, DF_of_D_eq_val a0, DF_of_D_eq_val a1, DF_of_D_eq_val b0, DF_of_D_eq_val b1]
  rfl

variable (hsw : sw ∉ pairRegs a b)

include hsw

/-- Both CSWAPs exchange the pairs when the swap bit is set, and write nothing else (R178). -/
theorem handSwap_spec (s : State) :
    handPairs a b (handSwap a b sw s) = swapRef (swapBit s sw) (handPairs a b s) ∧
      OthersKept s (handSwap a b sw s) (pairRegs a b) := by
  obtain ⟨h1, h2, h3⟩ := pairs_disjoint ha hb hab
  have hsw := not_mem_pairRegs.1 hsw
  obtain ⟨kept1, a1, b1⟩ := afterCommand_cswap a b sw s
  obtain ⟨kept2, a2, b2⟩ := afterCommand_cswap (a + 1) (b + 1) sw (afterCommand (.cswap a b sw) s)
  rw [swapBit_of_othersKept kept1 (by simp [hsw]), DF_of_othersKept kept1 (j := a + 1) (by simp [h2]),
    DF_of_othersKept kept1 (j := b + 1) (by simp [h1.symm])] at a2 b2
  rw [← DF_of_othersKept kept2 (by simp [h1])] at a1
  rw [← DF_of_othersKept kept2 (by simp [h2.symm])] at b1
  refine ⟨?_, fun j hj => ?_⟩
  · simp only [handPairs, handSwap, a1, b1, a2, b2]
    cases swapBit s sw <;> rfl
  · have hj := not_mem_pairRegs.1 hj
    exact (kept2 j (by simp [hj])).trans (kept1 j (by simp [hj]))

/-! ### The rounds -/

variable (hx : x ∉ pairRegs a b) (hne : x ≠ sw)

include hx hne

/-- A round of the host is a round of the reference, and keeps x1 (R177, R178). -/
theorem handRound_spec (k t : Nat) (s : State) :
    handState a b sw (handRound a b x sw k t s) = ladderRound k (DF s x) (handState a b sw s) t ∧
      DF (handRound a b x sw k t s) x = DF s x := by
  have parts : handRound a b x sw k t s = afterCommand (.lstep a b x)
    (setSwap sw (k.testBit t) (handSwap a b sw (setSwap sw (swapBit s sw ^^ k.testBit t) s))) := rfl
  obtain ⟨swapped, keptSwap⟩ := handSwap_spec ha hb hab hsw (setSwap sw (swapBit s sw ^^ k.testBit t) s)
  obtain ⟨stepped, keptStep⟩ := afterCommand_lstep ha hb hab x
    (setSwap sw (k.testBit t) (handSwap a b sw (setSwap sw (swapBit s sw ^^ k.testBit t) s)))
  have keptWrite (c : Bool) (u : State) : DF (setSwap sw c u) x = DF u x :=
    DF_of_othersKept (othersKept_setSwap sw c u) (by simpa using hne)
  rw [keptWrite, DF_of_othersKept keptSwap hx, keptWrite] at stepped
  rw [parts, ladderRound, handState, handState]
  refine ⟨?_, ?_⟩
  · rw [stepped, handPairs_setSwap hsw, swapped, swapBit_setSwap, handPairs_setSwap hsw,
      swapBit_of_othersKept keptStep hsw, swapBit_setSwap]
  · rw [DF_of_othersKept keptStep hx, keptWrite, DF_of_othersKept keptSwap hx, keptWrite]

/-- The loop of the host is the reference's fold (R177, R178). -/
theorem handRounds_spec (k : Nat) (ts : List Nat) : ∀ s : State,
    handState a b sw (ts.foldl (fun st i => handRound a b x sw k i st) s) =
      ts.foldl (ladderRound k (DF s x)) (handState a b sw s) := by
  induction ts with
  | nil => exact fun _ => rfl
  | cons i ts ih =>
    intro s
    obtain ⟨round, x1⟩ := handRound_spec ha hb hab hsw hx hne k i s
    rw [List.foldl_cons, ih, round, x1, List.foldl_cons]

/-- The whole sequence from R178's starting values divides the coordinates that the reference's ladder
ends with. -/
theorem handLadder_spec {i d : RegIx} (hi : i ≠ a) (k : Nat) {s : State}
    (start : handState a b sw s = ((1, 0, DF s x, 1), false)) :
    D (handLadder a b x sw i d k s) d = (ladderOut k (DF s x)).val := by
  have rounds := handRounds_spec ha hb hab hsw hx hne k (List.range 255).reverse s
  rw [start, ← ladderRounds] at rounds
  rw [handLadder]
  generalize (List.range 255).reverse.foldl (fun st t => handRound a b x sw k t st) s = u at rounds ⊢
  have final : handPairs a b (handSwap a b sw u) = ladderRef k (DF s x) := by
    rw [(handSwap_spec ha hb hab hsw u).1, ladderRef_eq, ← rounds, handState]
  rw [afterCommand_quotient _ hi, ladderOut, ← final, handPairs]

end

/-- Settles O52: the host's rounds are those of the reference on the residues of its registers, and its
last two commands divide. -/
theorem ladderByHand : Obligations.LadderByHand := by
  intro a b x sw i d rd ra rb s l t ha hb hab hx hsw hne hi hA hA1 hB hB1 hS hX ht
  obtain ⟨t', ht', -, -, -, value⟩ := ladder_completes rd ra rb l
  obtain rfl := next_unique ht ht'
  have x1 : DF s x = uOf l rb := DF_of_D_eq_mod hX
  have start : handState a b sw s = ((1, 0, DF s x, 1), false) := by
    rw [handState, handPairs, x1, DF_of_D_eq_mod hB, DF, hA, DF, hA1, DF, hB1, swapBit_of_D_eq_zero hS,
      Nat.cast_one, Nat.cast_zero]
  have hand := handLadder_spec ha hb hab hsw hx hne (d := d) hi (S l ra) start
  rw [x1] at hand
  exact BitVec.eq_of_toNat_eq (hand.trans value.symm)

end Sys2Proof.Machine
end

section
/-! SUPPORT. The Edwards formulas in the ring of residues (42_edwards R190, R194), and EDADD and EDDBL
on aligned quads. -/

namespace Sys2Proof.Machine

open Sys2Proof.Claims

/-! ### The formulas in residues -/

/-- The residues of a quad's four values (R22). -/
def Quad.residues (q : Quad) : F4 := (residue q.x, residue q.y, residue q.z, residue q.t)

theorem residues_srcQuad (s : State) (i : RegIx) : (s.srcQuad i).residues = quadF s i := rfl

theorem residue_constD2 : residue constD2 = 2 * dF := by decide +kernel

theorem residue_two : residue 2 = 2 := by decide +kernel

/-- The machine's addition formula is the reference's, with canonical values (R190, R197). -/
theorem edAdd_eq (p q : Quad) : edAdd p q = quadOfResidues (edAddRef p.residues q.residues) := by
  simp only [edAdd, quadOfResidues, edAddRef, Quad.residues, mulP_eq_ofResidue, residue_addP,
    residue_subP, residue_ofResidue, residue_constD2, residue_two]

/-- The machine's doubling formula is the reference's, with canonical values (R194, R197). -/
theorem edDbl_eq (p : Quad) : edDbl p = quadOfResidues (edDblRef p.residues) := by
  simp only [edDbl, quadOfResidues, edDblRef, Quad.residues, mulP_eq_ofResidue, residue_addP,
    residue_subP, residue_ofResidue, residue_two, pow_two]

/-! ### The commands -/

theorem isQuadBase_iff (i : RegIx) : isQuadBase i = true ↔ i.val % 4 = 0 := beq_iff_eq

/-- EDADD on aligned bases writes the reference's sum (R190). -/
theorem exec_edadd {rd ra rb : RegIx} (s : State) (hrd : rd.val % 4 = 0) (hra : ra.val % 4 = 0)
    (hrb : rb.val % 4 = 0) : exec (.edadd rd ra rb) s =
      succeed s (quadWrites rd (quadOfResidues (edAddRef (quadF s ra) (quadF s rb)))) Status.keep := by
  have aligned : (isQuadBase rd && isQuadBase ra && isQuadBase rb) = true := by
    simp [isQuadBase_iff, hrd, hra, hrb]
  rw [exec, execEdadd, if_pos aligned, edAdd_eq, residues_srcQuad, residues_srcQuad]

/-- EDDBL on aligned bases writes the reference's double (R194). -/
theorem exec_eddbl {rd ra : RegIx} (s : State) (hrd : rd.val % 4 = 0) (hra : ra.val % 4 = 0) :
    exec (.eddbl rd ra) s =
      succeed s (quadWrites rd (quadOfResidues (edDblRef (quadF s ra)))) Status.keep := by
  have aligned : (isQuadBase rd && isQuadBase ra) = true := by simp [isQuadBase_iff, hrd, hra]
  rw [exec, execEddbl, if_pos aligned, edDbl_eq, residues_srcQuad]

theorem edadd_completes {rd ra rb : RegIx} (s : State) (hrd : rd.val % 4 = 0)
    (hra : ra.val % 4 = 0) (hrb : rb.val % 4 = 0) :
    Completes (.edadd rd ra rb) s (quadRegs rd) (finished s.status)
      fun t => QuadIs t rd (edAddRef (quadF s ra) (quadF s rb)) :=
  completes_of_succeed (exec_edadd s hrd hra hrb) fun _ => quadIs_of_quadWrites

theorem eddbl_completes {rd ra : RegIx} (s : State) (hrd : rd.val % 4 = 0) (hra : ra.val % 4 = 0) :
    Completes (.eddbl rd ra) s (quadRegs rd) (finished s.status)
      fun t => QuadIs t rd (edDblRef (quadF s ra)) :=
  completes_of_succeed (exec_eddbl s hrd hra) fun _ => quadIs_of_quadWrites

/-- A word with an unaligned base is the only illegal EDADD (R92, R233). -/
theorem wellFormed_edadd_eq_false (rd ra rb : RegIx) :
    (Instr.edadd rd ra rb).wellFormed = false ↔
      rd.val % 4 ≠ 0 ∨ ra.val % 4 ≠ 0 ∨ rb.val % 4 ≠ 0 := by
  simp only [Instr.wellFormed, Bool.and_eq_false_iff, beq_eq_false_iff_ne, or_assoc]

/-- A word with an unaligned base is the only illegal EDDBL (R92, R233). -/
theorem wellFormed_eddbl_eq_false (rd ra : RegIx) :
    (Instr.eddbl rd ra).wellFormed = false ↔ rd.val % 4 ≠ 0 ∨ ra.val % 4 ≠ 0 := by
  simp only [Instr.wellFormed, Bool.and_eq_false_iff, beq_eq_false_iff_ne]

/-- Settles O53, by the value of the machine's addition formula. -/
theorem edaddCommand : Obligations.EdaddCommand :=
  ⟨wordRule_of_row (fun _ _ _ => rfl) (by simp [OpRow.reservedUsed, resUsed])
    fun _ => (wellFormed_edadd_eq_false _ _ _).symm, fun _ _ _ s => edadd_completes s⟩

/-- Settles O54, by the value of the machine's doubling formula. -/
theorem eddblCommand : Obligations.EddblCommand :=
  ⟨wordRule_of_rd_ra (fun _ _ _ => rfl) (by simp) (by simp) rfl
    fun _ => (wellFormed_eddbl_eq_false _ _).symm, fun _ _ s => eddbl_completes s⟩

end Sys2Proof.Machine
end

section
/-! SUPPORT. EDADD's and EDDBL's formulas on points (42_edwards R189, R190, R194): both are closed, and
what the sum is for equal points, the identity and negated points. -/

namespace Sys2Proof.Machine

open Sys2Proof.Claims

/-- The negated quad: X and T change sign. -/
def negQuad (p : F4) : F4 := (-p.1, p.2.1, p.2.2.1, -p.2.2.2)

/-- The sum of two points is a point: d is no square and −1 is one (R190). -/
theorem extendedPoint_edAddRef {p q : F4} (hp : ExtendedPoint p) (hq : ExtendedPoint q) :
    ExtendedPoint (edAddRef p q) := by
  have : Fact fieldP.Prime := ⟨fieldP_prime⟩
  obtain ⟨hz1, ht1, hc1⟩ := hp
  obtain ⟨hz2, ht2, hc2⟩ := hq
  exact edAdd_extended (d := dF) residue_two_ne_zero iF_sq constD_not_square hz1 ht1 hc1 hz2 ht2 hc2
    rfl rfl rfl rfl

/-- The double of a point is a point (R194). -/
theorem extendedPoint_edDblRef {p : F4} (hp : ExtendedPoint p) : ExtendedPoint (edDblRef p) := by
  have : Fact fieldP.Prime := ⟨fieldP_prime⟩
  obtain ⟨hz, ht, hc⟩ := hp
  exact edDbl_extended (d := dF) residue_two_ne_zero iF_sq constD_not_square hz ht hc rfl rfl rfl rfl

/-- A point added to itself is its double: each factor of the sum is ±2 times that of the double, by
the curve equation (R190, R194). -/
theorem samePoint_edAddRef_self {p : F4} (hp : ExtendedPoint p) :
    SamePoint (edAddRef p p) (edDblRef p) := by
  obtain ⟨x, y, z, t⟩ := p
  obtain ⟨-, -, hc⟩ := hp
  simp only at hc
  simp only [SamePoint, edAddRef, edDblRef]
  have f : 2 * z * z - t * (2 * dF) * t = 2 * (2 * z ^ 2 + (x ^ 2 - y ^ 2)) := by
    linear_combination 2 * hc
  have g : 2 * z * z + t * (2 * dF) * t = -2 * (x ^ 2 - y ^ 2) := by linear_combination -2 * hc
  rw [f, g]
  constructor <;> ring

/-- The identity (0, 1, 1, 0) is neutral (R189, R190). -/
theorem samePoint_edAddRef_identity (p : F4) : SamePoint (edAddRef p (0, 1, 1, 0)) p := by
  simp only [SamePoint, edAddRef]
  constructor <;> ring

/-- A point and its negation add to (0, Y, Y, 0), by the curve equation (R189, R190). -/
theorem edAddRef_negQuad {p : F4} (hp : ExtendedPoint p) :
    (edAddRef p (negQuad p)).1 = 0 ∧ (edAddRef p (negQuad p)).2.2.2 = 0 ∧
      (edAddRef p (negQuad p)).2.1 = (edAddRef p (negQuad p)).2.2.1 := by
  obtain ⟨x, y, z, t⟩ := p
  obtain ⟨-, -, hc⟩ := hp
  simp only at hc
  simp only [edAddRef, negQuad]
  refine ⟨by ring, by ring, ?_⟩
  linear_combination 2 * (2 * z ^ 2 - 2 * dF * t ^ 2) * hc

/-- Settles O55, by the values that the two commands write and the laws of the formulas. -/
theorem edwardsPointLaws : Obligations.EdwardsPointLaws := by
  intro rd ra rb s hrd hra hrb hp hq
  obtain ⟨t, ht, -, -, -, sum⟩ := edadd_completes s hrd hra hrb
  obtain ⟨u, hu, -, -, -, double⟩ := eddbl_completes s hrd hra
  have sumPoint := extendedPoint_edAddRef hp hq
  have doublePoint := extendedPoint_edDblRef hp
  refine ⟨t, u, _, _, ht, sum, sumPoint.1, sumPoint, hu, double, doublePoint.1, doublePoint,
    fun same => ?_, fun identity => ?_, fun negated => ?_⟩
  · rw [same]
    exact samePoint_edAddRef_self hp
  · rw [identity]
    exact samePoint_edAddRef_identity _
  · rw [negated]
    exact edAddRef_negQuad hp

end Sys2Proof.Machine
end

section
/-! SUPPORT. Point encoding and decoding as commands (43_encode_decode R209 to R217): EDENC in the ring
of residues, what EDDEC's error flag says of DEC, and EDENC of a quad that EDDEC wrote. -/

namespace Sys2Proof.Machine

open Sys2Proof.Claims

/-! ### Encoding (R209, R210) -/

/-- The encoding as a number: y below bit 255, and bit 0 of x in it (R209). -/
theorem toNat_packPoint {y : FVal} (x : FVal) (hy : y.toNat < 2 ^ 255) :
    (packPoint x y).toNat = y.toNat + 2 ^ 255 * (x.toNat % 2) := by
  have sum := Nat.two_pow_add_eq_or_of_lt hy (x.toNat % 2)
  have bit : (x &&& 1).toNat = x.toNat % 2 := (BitVec.toNat_and x 1).trans (Nat.and_one_is_mod _)
  have shifted : ((x &&& 1) <<< 255).toNat = 2 ^ 255 * (x.toNat % 2) := by
    rw [BitVec.toNat_shiftLeft, bit, Nat.shiftLeft_eq]
    omega
  rw [packPoint, BitVec.toNat_or, shifted, Nat.or_comm, ← sum, Nat.add_comm]

/-- R210's encoding of a quad of residues: the affine y, and the parity of the affine x in bit 255. -/
def encRef (q : F4) : Nat := (q.2.1 * invF q.2.2.1).val + 2 ^ 255 * ((q.1 * invF q.2.2.1).val % 2)

/-- The machine's encoding is the reference's (R210). -/
theorem toNat_edEncWith (p : Quad) : (edEncWith (invP p.z) p).toNat = encRef p.residues := by
  have inverse : residue (invP p.z) = invF (residue p.z) := by rw [residue_invP, invF, P_eq_fieldP]
  have hy := (val_lt_fieldP (residue p.y * invF (residue p.z))).trans fieldP_lt
  simp only [edEncWith, mulP_eq_ofResidue, inverse]
  rw [toNat_packPoint _ (by rwa [toNat_ofResidue]), toNat_ofResidue, toNat_ofResidue]
  rfl

/-- EDENC of an aligned quad writes its encoding (R210). -/
theorem edenc_completes {ra : RegIx} (rd : RegIx) (s : State) (hra : ra.val % 4 = 0) :
    Completes (.edenc rd ra) s [rd] (finished s.status) fun t => D t rd = encRef (quadF s ra) :=
  completes_of_write ((exec_edenc rd ra s).trans (if_pos ((isQuadBase_iff ra).2 hra))) rfl
    fun _ h => h.trans (toNat_edEncWith _)

/-- Settles O56, by the value of the machine's encoding. -/
theorem edencCommand : Obligations.EdencCommand :=
  ⟨wordRule_of_rd_ra (fun _ _ _ => rfl) (by simp) (by simp) rfl fun _ => beq_eq_false_iff_ne.symm,
    fun rd _ s => edenc_completes rd s⟩

/-! ### EDDEC (R213) -/

/-- Settles O57: EDDEC is decided by the reference's DEC. -/
theorem eddecCommand : Obligations.EddecCommand :=
  ⟨wordRule_of_rd_ra (fun _ _ _ => rfl) (by simp) (by simp) rfl fun _ => beq_eq_false_iff_ne.symm,
    fun _ _ _ hrd => ⟨fun _ => eddec_completes hrd, eddec_fails hrd⟩⟩

/-- From a state without error, EDDEC leaves ERR set exactly if DEC rejects (R213, R231). -/
theorem err_of_eddec {rd ra : RegIx} {s t : State} (hrd : rd.val % 4 = 0)
    (clear : s.status.err = false) (ht : exec (.eddec rd ra) s = .next t) :
    t.status.err = (decRef (S s ra)).isNone := by
  cases hq : decRef (S s ra) with
  | none =>
    obtain ⟨t', ht', -, -, hst⟩ := eddec_fails hrd hq
    rw [next_unique ht ht', hst]
    rfl
  | some q =>
    obtain ⟨t', ht', -, -, hst, -⟩ := eddec_completes hrd hq
    rw [next_unique ht ht', hst]
    exact clear

/-! ### EDENC after EDDEC -/

/-- A snapshot that holds a written quad holds its residues (R22, R119). -/
theorem quadF_of_quadIs {t u : State} {i : RegIx} {q : F4} (h : QuadIs t i q)
    (kept : ∀ j ∈ quadRegs i, u.snap.f[j.val] = t.f[j.val]) : quadF u i = q := by
  have held {j : RegIx} (hj : j ∈ quadRegs i) {x : F} (hx : D t j = x.val) : SF u j = x := by
    rw [SF, S, kept j hj]
    exact DF_of_D_eq_val hx
  obtain ⟨hx, hy, hz, ht⟩ := h
  rw [quadF, held (by simp [quadRegs]) hx, held (by simp [quadRegs]) hy,
    held (by simp [quadRegs]) hz, held (by simp [quadRegs]) ht]

/-- The quad that DEC answers has Z = 1, and its encoding is the value that was decoded (R210, R212). -/
theorem encRef_of_decRef {v : Nat} (hv : v < 2 ^ 256) {q : F4} (h : decRef v = some q) :
    encRef q = v := by
  obtain ⟨x, y, ⟨-, hxy⟩, rfl⟩ := (decRef_eq_some_iff hv).1 h
  have one : invF 1 = 1 := one_pow _
  rw [encRef, one, mul_one, mul_one, hxy]

/-- Settles O59: EDDEC completed without error, so DEC accepted, and the quad it wrote is the one that
encodes to the decoded value. -/
theorem encodeAfterDecode : Obligations.EncodeAfterDecode := by
  intro rd ra re s t u hrd clear ht ok kept
  obtain ⟨q, hq⟩ : ∃ q, decRef (S s ra) = some q := by
    rw [err_of_eddec hrd clear ht] at ok
    exact Option.isSome_iff_exists.1 (Option.isNone_eq_false_iff.1 ok)
  obtain ⟨t', ht', -, -, -, written⟩ := eddec_completes hrd hq
  rw [← next_unique ht ht'] at written
  obtain ⟨v, hv, hframe, hothers, hst, value⟩ := edenc_completes re u hrd
  rw [quadF_of_quadIs written kept, encRef_of_decRef s.snap.f[ra.val].isLt hq] at value
  exact ⟨v, hv, hframe, hothers, hst, BitVec.eq_of_toNat_eq value⟩

/-! ### EDCHK (R217) -/

/-- EDCHK writes no register and ONCURVE alone: whether the reference's DEC accepts (R217). -/
theorem edchk_completes (ra : RegIx) (s : State) : Completes (.edchk ra) s []
    { finished s.status with oncurve := (decRef (S s ra)).isSome } fun _ => True := by
  have accepts : (decPoint (s.src ra)).isSome = (decRef (S s ra)).isSome := by
    rw [decPoint_eq, Option.isSome_map, toNat_src]
  rw [← accepts]
  exact completes_of_succeed (ws := []) (fl := Status.setOncurve _) rfl fun _ _ => trivial

/-- EDDEC fails with NOT_ON_CURVE exactly if DEC rejects (R213). -/
theorem eddec_fails_iff {rd ra : RegIx} {s : State} (hrd : rd.val % 4 = 0)
    (clear : s.status.err = false) : Fails (.eddec rd ra) s 4 ↔ decRef (S s ra) = none := by
  refine ⟨fun ⟨t, ht, _, _, hst⟩ => ?_, eddec_fails hrd⟩
  rw [← Option.isNone_iff_eq_none, ← err_of_eddec hrd clear ht, hst]
  rfl

/-- Settles O60: ONCURVE is the outcome of DEC, which decides EDDEC too. -/
theorem edchkCommand : Obligations.EdchkCommand := by
  refine ⟨wordRule_of_row (make := fun _ ra _ => .edchk ra) (fun _ _ _ => rfl) (fun w => ?_)
    (by simp [noneBad, Instr.wellFormed]), fun ra s => ?_⟩
  · simp only [OpRow.reservedUsed, reduceCtorEq, true_and, false_and, false_or]
    exact or_rotate.symm
  · obtain ⟨t, ht, hframe, hkept, hst, -⟩ := edchk_completes ra s
    refine ⟨t, ht, hframe, hkept, hst, fun rd hrd clear => ?_⟩
    rw [eddec_fails_iff hrd clear, hst, Option.isSome_eq_false_iff, Option.isNone_iff_eq_none]

end Sys2Proof.Machine
end

section
/-! SUPPORT. How a busy period ends and what a cycle outside its end does (60_exceptions R231, R241), the
precise failure of a word that does not decode (R242), and the level of irq (R238, R240). -/

namespace Sys2Proof.Machine

open Sys2Proof.Safety Sys2Proof.Claims

/-! ### The completion edge (R231, R280) -/

theorem complete_error {s : State} {c : CmdError} (h : decode s.snap.cmd = .error c) :
    complete s = failWith s c := by
  simp only [complete, h]

theorem complete_ok {s : State} {i : Instr} (h : decode s.snap.cmd = .ok i) :
    complete s = exec i s := by
  simp only [complete, h]

theorem engineEdge_last {s : State} (busy : s.status.busy = true) (last : s.cycles ≤ 1) :
    engineEdge s = complete s := by
  rw [engineEdge, if_pos busy, if_pos last]

/-- The cycle that ends the busy period of a decoded command is that command's meaning, and then the
cycle's bus transaction (R231, R241). -/
theorem step_exec {s t : State} {pins : Pins} {i : Instr} (hin : s.nextInput = .cycle pins)
    (high : pins.rstN = true) (busy : s.status.busy = true) (last : s.cycles ≤ 1)
    (dec : decode s.snap.cmd = .ok i) (ht : exec i (s.beginCycle pins) = .next t) :
    step s = .next (busEdge pins.bus t) := by
  have edge : engineEdge (s.beginCycle pins) = complete (s.beginCycle pins) :=
    engineEdge_last busy last
  have runs : complete (s.beginCycle pins) = exec i (s.beginCycle pins) := complete_ok dec
  exact step_cycle hin high (edge.trans (runs.trans ht))

/-! ### A cycle that completes no command (R62, R280) -/

/-- The engine's edge on a unit that is idle or not at the end of its busy period: a running command's
counter falls by one. -/
theorem engineEdge_not_last {s : State} (h : s.status.busy = false ∨ 1 < s.cycles) :
    engineEdge s =
      .next { s with cycles := if s.status.busy then s.cycles - 1 else s.cycles } := by
  cases busy : s.status.busy with
  | false =>
    rw [engineEdge, busy]
    rfl
  | true =>
    have running : 1 < s.cycles := h.resolve_left (by simp [busy])
    rw [engineEdge, if_pos busy, if_neg (Nat.not_le.2 running)]
    rfl

/-! ### A placed command word (R43; log 2) -/

theorem tableWord_toNat (w : Word) : tableWord 32 w.toNat = some w := by
  rw [tableWord, Nat.mod_eq_of_lt w.isLt, if_pos w.isLt, BitVec.ofNat_toNat, BitVec.setWidth_eq]

theorem withFetchWord_toNat (s : State) (w : Word) :
    s.withFetchWord 32 w.toNat = s.loadCommand w := by
  simp only [State.withFetchWord, tableWord_toNat]

/-! ### The codes of decode (R232) -/

/-- The code of a word that does not decode is 1 to 3: NOT_ON_CURVE is the one code that decode does
not give. -/
theorem decode_error_code {w : Word} {c : CmdError} (h : decode w = .error c) :
    1 ≤ c.code.toNat ∧ c.code.toNat ≤ 3 := by
  cases c with
  | illegalOpcode => decide
  | reservedField => decide
  | badOperand => decide
  | notOnCurve => exact absurd h (decode_ne_notOnCurve w)

/-! ### The interrupt output (R238, R240) -/

theorem irq_eq_false_of_done {s : State} (h : s.status.done = false) : s.irq = false := by
  rw [State.irq, h, Bool.and_false]

theorem irq_eq_false_of_irqEn {s : State} (h : s.ctrl.irqEn = false) : s.irq = false := by
  rw [State.irq, h, Bool.false_and]

/-- A write while busy, other than to STATUS, does nothing or is dropped (R70). -/
theorem busWrite_busy {s : State} {a : BusAddr} (busy : s.status.busy = true)
    (h : windowReg a ≠ .status) (v : Word) : busWrite s a v = s ∨ busWrite s a v = s.dropWrite := by
  unfold busWrite
  cases hr : windowReg a with
  | id => exact .inl rfl
  | version => exact .inl rfl
  | ctrl => exact .inr (if_pos busy)
  | status => exact absurd hr h
  | cmd => exact .inr (if_pos busy)
  | reserved => exact .inl rfl
  | field n w => exact .inr (if_pos busy)

/-! ### The statements -/

/-- Settles O16: on the completion edge the engine's edge is the command's meaning, and in any other
cycle it is one clock, after which the bus is served. -/
theorem stepRunsDecodedCommand : Obligations.StepRunsDecodedCommand := by
  refine ⟨fun s pins i t => step_exec, fun s pins hin high notLast => ?_, fun s w i dec => ?_⟩
  · have served : step s = .next (busEdge pins.bus _) :=
      step_cycle hin high (engineEdge_not_last (s := s.beginCycle pins) notLast)
    obtain ⟨rstN, bus⟩ := pins
    obtain rfl : rstN = true := high
    refine ⟨?_, ?_, ?_⟩
    · rintro rfl
      exact served
    · rintro a rfl
      exact served
    · rintro a v rfl
      exact served
  · obtain ⟨t, ht, -⟩ := exec_completes i ((s.loadCommand w).beginCycle { rstN := true, bus := .idle })
    rw [withFetchWord_toNat, ht]
    exact step_exec (pins := { rstN := true, bus := .idle }) rfl rfl rfl (Nat.le_refl 1) dec ht

/-- Settles O17: the completion is the failed one with decode's code. -/
theorem decodeErrorPrecise : Obligations.DecodeErrorPrecise := by
  intro s c dec
  obtain ⟨t, ht, frame, kept, status⟩ := failWith_spec s c
  exact ⟨t, (complete_error dec).trans ht, frame, kept, status, decode_error_code dec⟩

/-- Settles O24: a completion sets DONE and keeps IRQ_EN; each cause that lowers irq clears one of the
two, and a dropped write touches neither. -/
theorem interruptLevel : Obligations.InterruptLevel := by
  refine ⟨fun s t ht => ?_, fun s v clear => ?_, fun s w idle => ?_, fun s v idle disable => ?_,
    fun s a v busy other => ?_, rfl⟩
  · obtain ⟨u, hu, frame, -, done, -⟩ := complete_completes s
    obtain rfl := next_unique ht hu
    rw [State.irq, frame.ctrl, done, Bool.and_true]
  · refine irq_eq_false_of_done ?_
    simp [clear]
  · refine irq_eq_false_of_done ?_
    rw [memWrite_cmd, idle]
    rfl
  · rw [memWrite_ctrl, idle]
    exact ⟨irq_eq_false_of_irqEn disable, rfl⟩
  · rcases busWrite_busy busy other v with e | e
    · rw [e]
    · rw [e]
      rfl

/-- Settles O25, by the cases of a step: of a stopped clock it takes the event alone. -/
theorem stoppedClockFreezes : Obligations.StoppedClockFreezes := by
  intro s rest hin
  have next : s.nextInput = .clockStopped := by rw [State.nextInput, hin]
  rw [step, next, eventStep, State.popInput, hin]
  rfl

end Sys2Proof.Machine
end

section
/-! SUPPORT. Two states of one timing take every step to states of one timing (70_reset_and_hazards
R285): no operand, register or result flag reaches BUSY, DONE, OVR or the cycle counter. -/

namespace Sys2Proof.Machine

open Sys2Proof.Safety Sys2Proof.Claims

/-! ### The events that are no clock edge (R250, R274) -/

theorem step_clockStopped {s : State} (hin : s.nextInput = .clockStopped) :
    step s = .next s.popInput := by
  rw [step, hin, eventStep]

theorem step_powerCycle {s : State} (hin : s.nextInput = .powerCycle) :
    step s = .next s.powerOn := by
  rw [step, hin, eventStep]

/-! ### One timing under each operation -/

section

variable {s s' : State} (h : SameTiming s s')

include h

theorem sameTiming_beginCycle (pins : Pins) :
    SameTiming (s.beginCycle pins) (s'.beginCycle pins) :=
  { h with rstPrev := rfl, inputs := congrArg List.tail h.inputs }

theorem sameTiming_popInput : SameTiming s.popInput s'.popInput :=
  { h with inputs := congrArg List.tail h.inputs }

theorem sameTiming_tick : SameTiming s.tick s'.tick :=
  { h with cycles := congrArg (· - 1) h.cycles }

theorem sameTiming_dropWrite : SameTiming s.dropWrite s'.dropWrite := { h with ovr := rfl }

theorem sameTiming_setCtrl (c : Ctrl) : SameTiming (s.setCtrl c) (s'.setCtrl c) :=
  { h with ctrl := rfl }

theorem sameTiming_writeReg (i : RegIx) (v v' : FVal) :
    SameTiming (s.writeReg i v) (s'.writeReg i v') := { h with }

theorem sameTiming_writeOneToClear (v : Word) :
    SameTiming (s.setStatus (s.status.writeOneToClear v))
      (s'.setStatus (s'.status.writeOneToClear v)) :=
  { h with
    done := congrArg (· && !v.getLsbD 1) h.done
    ovr := congrArg (· && !v.getLsbD 3) h.ovr }

/-- The counter of an accepted command is loaded from its word alone (R280). -/
theorem sameTiming_accept (w : Word) : SameTiming (s.accept w) (s'.accept w) :=
  { h with busy := rfl, done := rfl, lastCmd := rfl, cmd := rfl, cycles := rfl }

/-- A reset edge and a power-on set everything but what stands outside the unit, the free values of
a power-on by the count of power-ons (R270, R274; log 7). -/
theorem sameTiming_resetEdge : SameTiming s.resetEdge s'.resetEdge := by
  constructor
  case inputs => exact h.inputs
  case powerUps => exact h.powerUps
  all_goals rfl

theorem sameTiming_powerOn : SameTiming s.powerOn s'.powerOn := by
  constructor
  case inputs => exact congrArg List.tail h.inputs
  case rstPrev => rfl
  case resetDone => rfl
  all_goals simp only [State.powerOn, h.powerUps]

/-- A completion answers BUSY 0 and DONE 1 whatever it computes (R231). -/
theorem sameTiming_complete :
    ∃ t t', complete s = .next t ∧ complete s' = .next t' ∧ SameTiming t t' := by
  obtain ⟨t, ht, fr, idle, done, ovr⟩ := complete_completes s
  obtain ⟨t', ht', fr', idle', done', ovr'⟩ := complete_completes s'
  refine ⟨t, t', ht, ht', ?_⟩
  constructor
  case busy => rw [idle, idle']
  case done => rw [done, done']
  case ovr => rw [ovr, ovr', h.ovr]
  case ctrl => rw [fr.ctrl, fr'.ctrl, h.ctrl]
  case lastCmd => rw [fr.lastCmd, fr'.lastCmd, h.lastCmd]
  case cmd => rw [fr.snap, fr'.snap]
  case cycles => rw [fr.cycles, fr'.cycles]
  case rstPrev => rw [fr.rstPrev, fr'.rstPrev, h.rstPrev]
  case inputs => rw [fr.inputs, fr'.inputs, h.inputs]
  case resetDone => rw [fr.resetDone, fr'.resetDone, h.resetDone]
  case powerUps => rw [fr.powerUps, fr'.powerUps, h.powerUps]

/-- When the busy period ends is decided by BUSY and the counter (R280). -/
theorem sameTiming_engineEdge :
    ∃ t t', engineEdge s = .next t ∧ engineEdge s' = .next t' ∧ SameTiming t t' := by
  unfold engineEdge
  rw [← h.busy, ← h.cycles]
  split_ifs
  · exact sameTiming_complete h
  · exact ⟨_, _, rfl, rfl, sameTiming_tick h⟩
  · exact ⟨_, _, rfl, rfl, h⟩

/-- Whether a write is dropped is decided by its address and BUSY (R70). -/
theorem sameTiming_busWrite (a : BusAddr) (v : Word) :
    SameTiming (busWrite s a v) (busWrite s' a v) := by
  unfold busWrite
  rw [← h.busy]
  cases windowReg a with
  | id => exact h
  | version => exact h
  | reserved => exact h
  | status => exact sameTiming_writeOneToClear h v
  | ctrl =>
    cases s.status.busy
    · exact sameTiming_setCtrl h _
    · exact sameTiming_dropWrite h
  | cmd =>
    cases s.status.busy
    · exact sameTiming_accept h v
    · exact sameTiming_dropWrite h
  | field n w =>
    cases s.status.busy
    · exact sameTiming_writeReg h n _ _
    · exact sameTiming_dropWrite h

theorem sameTiming_busEdge (req : BusReq) : SameTiming (busEdge req s) (busEdge req s') := by
  cases req with
  | idle => exact h
  | read a => exact h
  | write a v => exact sameTiming_busWrite h a v

theorem sameTiming_step : ∃ t t', step s = .next t ∧ step s' = .next t' ∧ SameTiming t t' := by
  have next : s'.nextInput = s.nextInput := by rw [State.nextInput, State.nextInput, h.inputs]
  cases hin : s.nextInput with
  | clockStopped =>
    exact ⟨_, _, step_clockStopped hin, step_clockStopped (next.trans hin), sameTiming_popInput h⟩
  | powerCycle =>
    exact ⟨_, _, step_powerCycle hin, step_powerCycle (next.trans hin), sameTiming_powerOn h⟩
  | cycle pins =>
    have begun := sameTiming_beginCycle h pins
    cases rst : pins.rstN with
    | false =>
      exact ⟨_, _, step_reset hin rst, step_reset (next.trans hin) rst, sameTiming_resetEdge begun⟩
    | true =>
      obtain ⟨t, t', ht, ht', same⟩ := sameTiming_engineEdge begun
      exact ⟨_, _, step_cycle hin rst ht, step_cycle (next.trans hin) rst ht',
        sameTiming_busEdge same pins.bus⟩

end

/-! ### The statement -/

/-- Settles O21: the latency is read off decode's outcome and the opcode, and every operation of a
step keeps two states of one timing so. -/
theorem timingIndependentOfData : Obligations.TimingIndependentOfData := by
  refine ⟨fun w w' i i' dec dec' op => ?_, fun w w' c c' bad bad' => ?_, fun s s' => sameTiming_step⟩
  · rw [latencyOf_ok dec, latencyOf_ok dec', ← decode_ok_opcode dec, ← decode_ok_opcode dec', op]
  · rw [latencyOf_error bad, latencyOf_error bad']

end Sys2Proof.Machine
end

section
/-! SUPPORT. The timeless model (70_reset_and_hazards R289): states alike in it stay alike under the
agents' steps, and each clock cycle is the agents' run that its pins and the busy period give (R241). -/

namespace Sys2Proof.Machine

open Sys2Proof.Safety Sys2Proof.Claims

/-! ### A clock cycle by what the engine does at its edge (R241, R280) -/

section

variable {s : State} {pins : Pins} (hin : s.nextInput = .cycle pins) (high : pins.rstN = true)

include hin high

theorem step_idle (idle : s.status.busy = false) :
    step s = .next (busEdge pins.bus (s.beginCycle pins)) := by
  refine step_cycle hin high ?_
  rw [engineEdge, State.beginCycle_status, idle, if_neg Bool.false_ne_true]

theorem step_running (busy : s.status.busy = true) (running : 1 < s.cycles) :
    step s = .next (busEdge pins.bus (s.beginCycle pins).tick) := by
  refine step_cycle hin high ?_
  rw [engineEdge, State.beginCycle_status, State.beginCycle_cycles, if_pos busy,
    if_neg (Nat.not_le.2 running)]

theorem step_last (busy : s.status.busy = true) (last : s.cycles ≤ 1) {t : State}
    (ht : complete (s.beginCycle pins) = .next t) : step s = .next (busEdge pins.bus t) :=
  step_cycle hin high ((engineEdge_last (s := s.beginCycle pins) busy last).trans ht)

end

/-! ### States alike in the timeless model -/

/-- Completions of states alike in the timeless model are alike in it (R231). -/
theorem complete_untimed {s s' t : State} (h : untimed s = untimed s') (ht : complete s = .next t) :
    ∃ t', complete s' = .next t' ∧ untimed t = untimed t' := by
  obtain ⟨u, hu, frame, -⟩ := complete_completes s
  obtain ⟨u', hu', frame', -⟩ := complete_completes s'
  obtain ⟨v, v', hv, hv', hf, hs⟩ :=
    complete_congr (s := s) (s' := s') (congrArg State.snap h :) (congrArg State.f h :)
      (congrArg State.status h :)
  obtain rfl := next_unique hu ht
  obtain rfl := next_unique hv hu
  obtain rfl := next_unique hv' hu'
  exact ⟨v', hu', CompletionFrame.untimed_eq frame frame' hf hs h⟩

/-- A read of the timeless model is a read of the unit out of reset (R62). -/
theorem readData_untimed (s : State) {pins : Pins} (high : pins.rstN = true) :
    readData (untimed s) { rstN := true, bus := pins.bus } = readData s pins := by
  obtain ⟨rstN, bus⟩ := pins
  obtain rfl : rstN = true := high
  cases bus with
  | idle => rfl
  | read a => rfl
  | write a v => rfl

/-- The host's step, up to the write on the bus, is the beginning of the cycle (R62, R289). -/
theorem untimed_setRdata_readData (s : State) {pins : Pins} (high : pins.rstN = true) :
    untimed ((untimed s).setRdata (readData (untimed s) { rstN := true, bus := pins.bus })) =
      untimed (s.beginCycle pins) := by
  rw [readData_untimed s high]
  rfl

/-! ### Runs of the agents -/

theorem runAgents_host (req : BusReq) (s : State) :
    runAgents [.host req] s = some (hostStep req s) := rfl

theorem runAgents_engine_host {s t : State} (busy : s.status.busy = true)
    (ht : complete s = .next t) (req : BusReq) :
    runAgents [.engine, .host req] s = some (hostStep req t) := by
  simp only [runAgents, agentStep, if_pos busy, ht]

theorem runAgents_host_engine {s t : State} {req : BusReq}
    (busy : (hostStep req s).status.busy = true) (ht : complete (hostStep req s) = .next t) :
    runAgents [.host req, .engine] s = some t := by
  simp only [runAgents, agentStep, if_pos busy, ht]

/-- The engine and then a host that reads nothing: what the completion edge leaves, alike in the
timeless model (R241). -/
theorem engine_then_host {s t : State} {pins : Pins} (high : pins.rstN = true)
    (noRead : ∀ u : State, readData u pins = none) (ht : complete (s.beginCycle pins) = .next t) :
    ∃ u, complete (untimed s) = .next u ∧
      untimed (hostStep pins.bus u) = untimed (busEdge pins.bus t) := by
  obtain ⟨u, hu, -⟩ := complete_completes (untimed s)
  have alike : untimed ((untimed s).setRdata none) = untimed (s.beginCycle pins) := by
    rw [← untimed_setRdata_readData s high, readData_untimed s high, noRead]
  obtain ⟨t', ht', same⟩ := complete_untimed alike (complete_setRdata hu none)
  obtain rfl := next_unique ht' ht
  refine ⟨u, hu, busEdge_untimed _ ?_⟩
  have silent : readData u { rstN := true, bus := pins.bus } = none := by
    rw [← high]
    exact noRead u
  rw [silent]
  exact same

/-! ### A clock cycle as a run of the agents (R241, R289) -/

/-- On the completion edge both agents step, the host first exactly when it reads. -/
theorem completionEdge_agents {s : State} {pins : Pins} (hin : s.nextInput = .cycle pins)
    (high : pins.rstN = true) (busy : s.status.busy = true) (last : s.cycles ≤ 1) :
    ∃ t r, step s = .next t ∧ runAgents (cycleAgents s pins) (untimed s) = some r ∧
      untimed r = untimed t ∧ AgentStep.engine ∈ cycleAgents s pins := by
  obtain ⟨t, ht, -⟩ := complete_completes (s.beginCycle pins)
  have stepped := step_last hin high busy last ht
  rw [cycleAgents, if_pos high, if_pos ⟨busy, last⟩]
  obtain ⟨rstN, bus⟩ := pins
  cases bus with
  | idle =>
    obtain ⟨u, hu, same⟩ := engine_then_host high (fun _ => rfl) ht
    exact ⟨_, _, stepped, runAgents_engine_host (s := untimed s) busy hu _, same, by simp⟩
  | write a v =>
    obtain ⟨u, hu, same⟩ := engine_then_host high (fun _ => rfl) ht
    exact ⟨_, _, stepped, runAgents_engine_host (s := untimed s) busy hu _, same, by simp⟩
  | read a =>
    obtain ⟨r, hr, same⟩ := complete_untimed (untimed_setRdata_readData s high).symm ht
    exact ⟨_, _, stepped, runAgents_host_engine (req := .read a) busy hr, same.symm, by simp⟩

/-- In any other cycle the host steps alone, on the state that the engine's edge leaves, alike in the
timeless model to the one before it. -/
theorem ordinaryCycle_agents {s t : State} {pins : Pins} (high : pins.rstN = true)
    (ordinary : ¬(s.status.busy = true ∧ s.cycles ≤ 1))
    (alike : untimed (s.beginCycle pins) = untimed t) :
    ∃ r, runAgents (cycleAgents s pins) (untimed s) = some r ∧
      untimed r = untimed (busEdge pins.bus t) := by
  rw [cycleAgents, if_pos high, if_neg ordinary, runAgents_host]
  exact ⟨_, rfl, busEdge_untimed _ ((untimed_setRdata_readData s high).trans alike)⟩

/-! ### The statement -/

/-- Settles O29: a cycle in reset is reset alone, the completion edge the two agents, and any other
cycle the host alone. -/
theorem timelessRefinement : Obligations.TimelessRefinement := by
  intro s pins hin
  cases rst : pins.rstN with
  | false =>
    have resetAlone : cycleAgents s pins = [.reset] := by rw [cycleAgents, rst]; rfl
    exact ⟨_, (untimed s).resetEdge, step_reset hin rst, by rw [resetAlone]; rfl, nofun, nofun,
      fun _ => rfl⟩
  | true =>
    cases busy : s.status.busy with
    | false =>
      obtain ⟨r, hr, same⟩ := ordinaryCycle_agents (t := s.beginCycle pins) rst (by simp [busy]) rfl
      exact ⟨_, r, step_idle hin rst busy, hr, fun _ => same, nofun, nofun⟩
    | true =>
      by_cases last : s.cycles ≤ 1
      · obtain ⟨t, r, ht, hr, same, engine⟩ := completionEdge_agents hin rst busy last
        exact ⟨t, r, ht, hr, fun _ => same, fun _ _ noEngine => absurd engine noEngine, nofun⟩
      · have running : 1 < s.cycles := Nat.not_le.1 last
        obtain ⟨r, hr, same⟩ := ordinaryCycle_agents (t := (s.beginCycle pins).tick) rst
          (fun ends => last ends.2) rfl
        obtain ⟨counter, still⟩ := busEdge_busy pins.bus (s := (s.beginCycle pins).tick) busy
        refine ⟨_, r, step_running hin rst busy running, hr, fun _ => same, fun _ _ _ => ⟨still, ?_⟩,
          nofun⟩
        rw [counter, State.tick_cycles, State.beginCycle_cycles, Nat.sub_add_cancel running.le]

end Sys2Proof.Machine
end

section
/-! SUPPORT. Reset from any state (70_reset_and_hazards R270 to R274), and a host that keeps its duties
while a command runs (R281). -/

namespace Sys2Proof.Machine

open Sys2Proof.Safety Sys2Proof.Claims

/-! ### The reset edge (R270) -/

/-- A cycle in reset ends in the reset state; what stands outside the unit is kept. -/
theorem step_reset_eq {s : State} {bus : BusReq} {rest : List Input}
    (hin : s.inputs = .cycle { rstN := false, bus := bus } :: rest) :
    step s = .next { State.reset with
      inputs := rest
      rdata := readData s { rstN := false, bus := bus }
      powerUps := s.powerUps } := by
  have next : s.nextInput = .cycle { rstN := false, bus := bus } := by rw [State.nextInput, hin]
  rw [step_reset next rfl, State.resetEdge, State.beginCycle_inputs, hin]
  rfl

/-- Settles O22: of the state before a reset edge only what stands outside the unit is left, and a
power-on only takes its event and counts. -/
theorem resetEdge : Obligations.ResetEdge := by
  refine ⟨fun s bus rest hin => ?_, fun s bus rest hin => ?_⟩
  · have zeros (i : RegIx) : (Vector.replicate 32 (0 : FVal))[i.val] = 0 := Vector.getElem_replicate _
    have ctrl : State.reset.ctrl.toWord = 0x00000002#32 := by decide
    have status : State.reset.status.toWord = 0x00000000#32 := by decide
    exact ⟨_, step_reset_eq hin, rfl, zeros, ctrl, status, rfl⟩
  · have power : s.nextInput = .powerCycle := by rw [State.nextInput, hin]
    have left : s.powerOn.inputs = .cycle { rstN := false, bus := bus } :: rest :=
      congrArg List.tail hin
    exact ⟨_, _, step_powerCycle power, step_reset_eq left, rfl⟩

/-- Settles O23: after a reset edge the read data of a cycle in reset is 0. -/
theorem heldReset : Obligations.HeldReset := by
  intro s bus rest held hin
  refine ⟨_, step_reset_eq hin, ?_, rfl, rfl, rfl⟩
  rintro a rfl
  simp [readData, held]

/-! ### A host in duty (R281) -/

/-- The next event of a host in duty is a cycle out of reset with a transaction in duty. -/
theorem inDuty_cases {s : State} (h : inDuty s = true) :
    ∃ pins, s.nextInput = .cycle pins ∧ pins.rstN = true ∧
      transactionInDuty s.status.busy pins.bus = true := by
  unfold inDuty at h
  split at h
  · exact ⟨_, ‹_›, Bool.and_eq_true_iff.1 h⟩
  · cases h
  · cases h

/-- While a command runs, what the bus does in duty to a state, be it running or just completed: at
most a STATUS write that leaves DONE alone (duties 1 to 3). -/
theorem busEdge_inDuty {req : BusReq} (duty : transactionInDuty true req = true) (s : State) :
    (busEdge req s).status.busy = s.status.busy ∧ (busEdge req s).status.done = s.status.done ∧
      (s.status.ovr = false → (busEdge req s).status.ovr = false) := by
  cases req with
  | idle => exact ⟨rfl, rfl, id⟩
  | read a => exact ⟨rfl, rfl, id⟩
  | write a v =>
    simp only [busEdge, busWrite]
    simp only [transactionInDuty] at duty
    cases hr : windowReg a with
    | id => exact ⟨rfl, rfl, id⟩
    | version => exact ⟨rfl, rfl, id⟩
    | reserved => exact ⟨rfl, rfl, id⟩
    | status =>
      have keepsDone : v.getLsbD 1 = false := by simpa [hr] using duty
      refine ⟨rfl, ?_, fun clear => by simp [clear]⟩
      rw [State.setStatus_status, Status.writeOneToClear_done, keepsDone, Bool.not_false, Bool.and_true]
    | ctrl => simp [hr] at duty
    | cmd => simp [hr] at duty
    | field n w => simp [hr] at duty

/-- On an idle unit no write is dropped (R70). -/
theorem busEdge_idle_ovr {s : State} (idle : s.status.busy = false) (clear : s.status.ovr = false)
    (req : BusReq) : (busEdge req s).status.ovr = false := by
  cases req with
  | idle => exact clear
  | read a => exact clear
  | write a v =>
    rcases busWrite_cases s a v with e | ⟨busy, -⟩ | e | ⟨-, e | e | ⟨n, w, e⟩⟩
    case inr.inl => simp [idle] at busy
    all_goals rw [busEdge, e]
    · exact clear
    · simp [clear]
    · exact clear
    · exact clear
    · exact clear

/-- Settles O28: a bus transaction in duty neither sets OVR nor takes DONE from the completion of its
cycle. -/
theorem hostInDuty : Obligations.HostInDuty := by
  intro s h
  obtain ⟨pins, hin, high, duty⟩ := inDuty_cases h
  cases busy : s.status.busy with
  | false =>
    exact ⟨_, step_idle hin high busy,
      fun clear => busEdge_idle_ovr (s := s.beginCycle pins) busy clear pins.bus, nofun⟩
  | true =>
    have served := busEdge_inDuty (busy ▸ duty)
    by_cases last : s.cycles ≤ 1
    · obtain ⟨t, ht, -, -, done, ovr⟩ := complete_completes (s.beginCycle pins)
      obtain ⟨-, sameDone, noDrop⟩ := served t
      exact ⟨_, step_last hin high busy last ht, fun clear => noDrop (ovr.trans clear),
        fun _ _ => sameDone.trans done⟩
    · obtain ⟨sameBusy, -, noDrop⟩ := served (s.beginCycle pins).tick
      refine ⟨_, step_running hin high busy (Nat.not_le.1 last), noDrop, fun _ falls => ?_⟩
      rw [sameBusy] at falls
      cases busy.symm.trans falls

end Sys2Proof.Machine
end

section
/-! SUPPORT. The busy period (70_reset_and_hazards R280, R70): the state at each of its edges, with
any bus transactions in it, and its end in the timeless model (R289). -/

namespace Sys2Proof.Machine

open Sys2Proof.Safety Sys2Proof.Claims

/-! ### The events of a busy period (log 1) -/

theorem clockedFor_mono {s : State} {m n : Nat} (h : ClockedFor n s) (hmn : m ≤ n) :
    ClockedFor m s :=
  fun e he => h e (List.take_subset_take_left s.inputs hmn he)

/-- After n of n + 1 clocked events the next one is a cycle out of reset, listed or not. -/
theorem nextInput_of_clockedFor {s t : State} {n : Nat} (h : ClockedFor (n + 1) s)
    (ht : t.inputs = s.inputs.drop n) :
    ∃ bus, t.nextInput = .cycle { rstN := true, bus := bus } := by
  unfold State.nextInput
  cases left : s.inputs.drop n with
  | nil => exact ⟨.idle, by rw [ht, left]⟩
  | cons e rest =>
    have listed : s.inputs[n]? = some e := by
      rw [← Nat.add_zero n, ← List.getElem?_drop, left]
      rfl
    obtain ⟨bus, rfl⟩ := h e (by rw [List.take_add_one, listed]; simp)
    exact ⟨bus, by rw [ht, left]⟩

/-! ### The state inside a busy period -/

/-- The state n edges after word w was accepted in s: the counter has fallen by n and n events are
used up; OVR, the read data and the memory of the last edge depend on the cycles passed. -/
def busyState (s : State) (w : Word) (n : Nat) (ovr : Bool) (rdata : Option Word) (rstPrev : Bool) :
    State :=
  { s.accept w with
    status := { (s.accept w).status with ovr := ovr }
    cycles := latencyOf w - n
    inputs := s.inputs.drop n
    rdata := rdata
    rstPrev := rstPrev }

/-- A bus transaction on a running command whose DONE and ERR are 0, as after acceptance, can change
OVR alone (R70). -/
theorem busEdge_running (req : BusReq) {s : State} (busy : s.status.busy = true)
    (done : s.status.done = false) (err : s.status.err = false) :
    busEdge req s = s.setStatus { s.status with ovr := (busEdge req s).status.ovr } := by
  cases req with
  | idle => rfl
  | read a => rfl
  | write a v =>
    rw [busEdge]
    rcases busWrite_cases s a v with e | ⟨-, e⟩ | e | ⟨idle, -⟩
    · rw [e]
      rfl
    · rw [e]
      rfl
    · rw [e, State.setStatus_status]
      simp [Status.writeOneToClear, done, err]
    · cases busy.symm.trans idle

section

variable {s : State} {w : Word} {n : Nat} {ovr : Bool} {rdata : Option Word} {rstPrev : Bool}

/-- An edge before the last moves the counter, and then the bus is served (R241, R280). -/
theorem step_busyState {pins : Pins}
    (hin : (busyState s w n ovr rdata rstPrev).nextInput = .cycle pins) (high : pins.rstN = true)
    (notLast : n + 1 < latencyOf w) :
    step (busyState s w n ovr rdata rstPrev) = .next (busEdge pins.bus
      (busyState s w (n + 1) ovr (readData (busyState s w n ovr rdata rstPrev) pins) false)) := by
  have running : 1 < (busyState s w n ovr rdata rstPrev).cycles := Nat.lt_sub_of_add_lt (by omega)
  have ticked : ((busyState s w n ovr rdata rstPrev).beginCycle pins).tick =
      busyState s w (n + 1) ovr (readData (busyState s w n ovr rdata rstPrev) pins) false := by
    rw [State.tick, State.beginCycle, busyState, busyState, ← List.tail_drop]
    rfl
  rw [step_running hin high rfl running, ticked]

/-- Of what the bus does in it only OVR is left (R70). -/
theorem step_busyState_next {pins : Pins}
    (hin : (busyState s w n ovr rdata rstPrev).nextInput = .cycle pins) (high : pins.rstN = true)
    (notLast : n + 1 < latencyOf w) : ∃ ovr', step (busyState s w n ovr rdata rstPrev) =
      .next (busyState s w (n + 1) ovr' (readData (busyState s w n ovr rdata rstPrev) pins) false) :=
  ⟨_, (step_busyState hin high notLast).trans
    (congrArg Host.Outcome.next (busEdge_running pins.bus rfl rfl rfl))⟩

/-- The last edge is the completion, and then the bus is served (R241, R280). -/
theorem step_busyState_last {pins : Pins} {t : State}
    (hin : (busyState s w n ovr rdata rstPrev).nextInput = .cycle pins) (high : pins.rstN = true)
    (last : latencyOf w ≤ n + 1)
    (ht : complete ((busyState s w n ovr rdata rstPrev).beginCycle pins) = .next t) :
    step (busyState s w n ovr rdata rstPrev) = .next (busEdge pins.bus t) :=
  step_last hin high rfl (Nat.sub_le_iff_le_add'.2 last) ht

/-- When no event is listed, the next is an idle cycle (log 1). -/
theorem busyState_nextInput_idle (noEvents : s.inputs = []) :
    (busyState s w n ovr rdata rstPrev).nextInput = .cycle { rstN := true, bus := .idle } := by
  rw [State.nextInput, busyState, noEvents, List.drop_nil]

end

/-! ### Runs inside a busy period -/

/-- With any bus transactions, fewer than LAT edges end inside the busy period (R280, R70). -/
theorem run_busyState (s : State) (w : Word) (n : Nat) (inside : n < latencyOf w)
    (clocked : ClockedFor n s) : ∃ ovr rdata rstPrev,
      Sys2Proof.core.run n (s.accept w) = .next (busyState s w n ovr rdata rstPrev) := by
  induction n with
  | zero => exact ⟨s.status.ovr, s.rdata, s.rstPrev, rfl⟩
  | succ n ih =>
    obtain ⟨ovr, rdata, rstPrev, run⟩ := ih (by omega) (clockedFor_mono clocked n.le_succ)
    obtain ⟨bus, hin⟩ := nextInput_of_clockedFor clocked (t := busyState s w n ovr rdata rstPrev) rfl
    obtain ⟨ovr', stepped⟩ := step_busyState_next hin rfl inside
    exact ⟨ovr', _, _, (run_succ_of_run run).trans stepped⟩

/-- With no event listed, the cycles are idle, so that OVR stays and no read data comes (log 1, log 5). -/
theorem run_busyState_idle {s : State} (noEvents : s.inputs = []) (w : Word) (n : Nat)
    (inside : n < latencyOf w) : ∃ rdata rstPrev,
      Sys2Proof.core.run n (s.accept w) = .next (busyState s w n s.status.ovr rdata rstPrev) ∧
      (1 ≤ n → rdata = none ∧ rstPrev = false) := by
  induction n with
  | zero => exact ⟨s.rdata, s.rstPrev, rfl, nofun⟩
  | succ n ih =>
    obtain ⟨rdata, rstPrev, run, -⟩ := ih (by omega)
    have stepped := step_busyState (ovr := s.status.ovr) (rdata := rdata) (rstPrev := rstPrev)
      (busyState_nextInput_idle noEvents) rfl inside
    exact ⟨none, false, (run_succ_of_run run).trans stepped, fun _ => ⟨rfl, rfl⟩⟩

/-! ### The end of a busy period -/

/-- A completion does not read the cycle counter, which it clears (R231). -/
theorem complete_setCycles (s : State) (n : Nat) :
    complete { s with cycles := n } = complete s := by
  obtain ⟨t, t', ht, ht', hf, hs⟩ :=
    complete_congr (s := { s with cycles := n }) (s' := s) rfl rfl rfl
  obtain ⟨u, hu, frame, -⟩ := complete_completes { s with cycles := n }
  obtain ⟨u', hu', frame', -⟩ := complete_completes s
  obtain rfl := next_unique ht hu
  obtain rfl := next_unique ht' hu'
  have same : CompletionFrame s t := { frame with }
  rw [ht, ht', completion_unique same frame' hf hs]

/-- With no event listed, edge LAT is the completion of the accepted state (R280). -/
theorem run_latency_idle {s : State} (noEvents : s.inputs = []) (w : Word) {t : State}
    (ht : complete { s.accept w with rdata := none, rstPrev := false } = .next t) :
    Sys2Proof.core.run (latencyOf w) (s.accept w) = .next t := by
  obtain ⟨n, hn⟩ := Nat.exists_eq_add_of_le' (latencyOf_pos w)
  obtain ⟨rdata, rstPrev, run, -⟩ := run_busyState_idle noEvents w n (by omega)
  have begun : (busyState s w n s.status.ovr rdata rstPrev).beginCycle { rstN := true, bus := .idle } =
      { { s.accept w with rdata := none, rstPrev := false } with cycles := latencyOf w - n } := by
    have left : (s.inputs.drop n).tail = s.inputs := by
      rw [noEvents, List.drop_nil, List.tail_nil]
    simp only [State.beginCycle, busyState, left]
    rfl
  rw [← complete_setCycles _ (latencyOf w - n), ← begun] at ht
  rw [hn, run_succ_of_run run]
  exact step_busyState_last (busyState_nextInput_idle noEvents) rfl hn.le ht

/-- With any bus transactions, edge LAT is the completion and then the bus write (R280, R241). -/
theorem run_latency {s : State} {w : Word} (clocked : ClockedFor (latencyOf w) s) :
    ∃ (t : State) (pins : Pins) (v : State),
      Sys2Proof.core.run (latencyOf w - 1) (s.accept w) = .next t ∧ t.nextInput = .cycle pins ∧
      complete (t.beginCycle pins) = .next v ∧ v.status.busy = false ∧ v.status.done = true ∧
      Sys2Proof.core.run (latencyOf w) (s.accept w) = .next (busEdge pins.bus v) := by
  obtain ⟨n, hn⟩ := Nat.exists_eq_add_of_le' (latencyOf_pos w)
  rw [hn] at clocked
  obtain ⟨ovr, rdata, rstPrev, run⟩ :=
    run_busyState s w n (by omega) (clockedFor_mono clocked n.le_succ)
  obtain ⟨bus, hin⟩ :=
    nextInput_of_clockedFor clocked (t := busyState s w n ovr rdata rstPrev) rfl
  obtain ⟨v, hv, -, idle, done, -⟩ := complete_completes
    ((busyState s w n ovr rdata rstPrev).beginCycle { rstN := true, bus := bus })
  have ended := (run_succ_of_run run).trans (step_busyState_last hin rfl hn.le hv)
  rw [← hn] at ended
  exact ⟨_, _, v, by rw [hn]; exact run, hin, hv, idle, done, ended⟩

/-- In a fair run the engine steps as long as the unit is busy, and its step ends the command (R289). -/
theorem fairRun_idle_again {sched : Nat → AgentStep} {run : Nat → State} (fair : FairRun sched run)
    (n : Nat) : ∃ m, n ≤ m ∧ (run m).status.busy = false := by
  by_contra! stuck
  have busy (m : Nat) (hm : n ≤ m) : (run m).status.busy = true :=
    Bool.eq_true_of_not_eq_false (stuck m hm)
  obtain ⟨m, hm, engine⟩ := fair.fair n busy
  obtain ⟨t, ht, -, idle, -⟩ := complete_completes (run m)
  have stepped := fair.steps m
  rw [engine, agentStep, if_pos (busy m hm), Option.some_inj] at stepped
  obtain rfl := next_unique ht stepped
  exact stuck (m + 1) (by omega) idle

/-! ### The statement -/

/-- Settles O20: each edge before the last leads from one state of the busy period to the next, and the
last is the completion. -/
theorem busyPeriodLength : Obligations.BusyPeriodLength := by
  refine ⟨?_, fun s w => ⟨fun n inside clocked => ?_, run_latency⟩,
    fun sched run => fairRun_idle_again⟩
  · intro s w noEvents a
    refine ⟨latencyOf_pos w, fun n started inside => ?_, ?_⟩
    · obtain ⟨rdata, rstPrev, run, silent⟩ := run_busyState_idle noEvents w n inside
      obtain ⟨rfl, rfl⟩ := silent started
      have unlisted : s.inputs.drop n = s.inputs := by rw [noEvents, List.drop_nil]
      rw [run, busyState, unlisted]
      rfl
    · obtain ⟨t, ht, -, idle, done, -⟩ := complete_completes a
      exact ⟨t, run_latency_idle noEvents w ht, ht, idle, done⟩
  · obtain ⟨ovr, rdata, rstPrev, run⟩ := run_busyState s w n inside clocked
    exact ⟨_, run, rfl⟩

end Sys2Proof.Machine
end
